-- ==== Sys2Proof/Word.lean ====
section
/-! DEFINITION. The word types: the 32-bit words of a request frame and of the controller's registers
(spec/30_encoding.md R38, spec/20_memory.md R24) and the bytes of a plane (spec/10_state.md R10). -/

namespace Sys2Proof

/-- A 32-bit word: a header, an operand word, a controller register. -/
abbrev Word := BitVec 32

/-- A byte of a plane: eight pixels, bit 7 the leftmost (R22). -/
abbrev Byte := BitVec 8

end Sys2Proof
end

