-- ==== Sys2Proof/Syntax.lean ====
section
/-! DEFINITION. What arrives at the block: the instructions (one constructor per row of
spec/opcode_table.json), the words that carry them, and the other inputs of spec/48_client_traffic.md. -/

namespace Sys2Proof

/-- One constructor per row of spec/opcode_table.json. The first sixteen are the requests of
spec/30_encoding.md R40, their operands as the signed integers of R44 (`w` of HOSTWR stays a word: R60 reads
its bits). The `cmd…` constructors are the controller's commands of spec/48_client_traffic.md R66; they carry no
operand, because their parameters stand in controller registers. -/
inductive Instr where
  | nop
  | clear
  | swap
  | setpix (x y v : Int)
  | getpix (x y : Int)
  | hline (x1 x2 y v : Int)
  | vline (x y1 y2 v : Int)
  | fillrect (x1 y1 x2 y2 v : Int)
  | scrollup (n : Int)
  | scrolldn (n : Int)
  | copyrgn (sx sy dx dy w h : Int)
  | hostrd (i : Int)
  | hostwr (i : Int) (w : Word)
  | snapshot
  | reset
  | reservedF
  | cmdNop
  | cmdClear
  | cmdSwap
  | cmdSetPixel
  | cmdLine
  | cmdRectOutline
  | cmdRectFill
  | cmdCircleOutline
  | cmdCircleFill
  | cmdCopyRegion
  | cmdTextWriteChar
  | cmdTextSetCursor
  | cmdTextClear
  | cmdTextScrollUp
  | cmdTextScrollDown
deriving DecidableEq, Repr

/-- A request frame: header word and six operand words, always all seven (R38). -/
structure Frame where
  h  : Word
  a0 : Word
  a1 : Word
  a2 : Word
  a3 : Word
  a4 : Word
  a5 : Word
deriving DecidableEq, Repr

/-- What carries an instruction: a request frame on the request port (R38), or a value written to the controller's
command register 0x20 (R47, R66). The two kinds of words overlap, so the port is part of the transaction. -/
inductive Transaction where
  | request (f : Frame)
  | command (c : Word)
deriving DecidableEq, Repr

/-- One SETPIX request of a rasterizer or a bitmap blit, as its three operand words (R70). -/
structure PixelRequest where
  x : Word
  y : Word
  v : Word
deriving DecidableEq, Repr

/-- The controller commands whose pixels a rasterizer of another block chooses (R66, R70). -/
inductive RasterCommand where
  | line
  | circleOutline
  | circleFill
deriving DecidableEq, Repr

/-- The attributes of `renderCharacter` (R71). BOLD and BLINK change nothing there. -/
structure TextAttributes where
  reverse   : Bool
  underline : Bool
  bold      : Bool
  blink     : Bool
deriving DecidableEq, Repr

/-- One character to render: its eight glyph bytes as glyph_rom gives them, its two pixel values and its
attributes (R71). -/
structure TextCell where
  glyph : Vector Byte 8
  fg    : Int
  bg    : Int
  attrs : TextAttributes
deriving DecidableEq, Repr

/-- What the text renderer presents at one text-mode render: the 2,000 cells, row by row, and the cell of the cursor
when it is visible and in its "on" phase (R72). -/
structure TextScreen where
  cells  : Vector TextCell 2000
  cursor : Option (Fin 80 × Fin 25)
deriving DecidableEq, Repr

/-- The drawing-engine and text-renderer calls of R68 to R71, with the caller's arguments. -/
inductive DrawCall where
  | fillRectangle (x y w h v : Int)
  | drawRectangle (x y w h v : Int)
  | plot (pixels : List PixelRequest)
  | renderCharacter (x y : Int) (cell : TextCell)
deriving DecidableEq, Repr

/-- The display sink's "small control vocabulary" (R75). -/
inductive SinkMessage where
  | frameAcknowledge
  | resize (w h : Nat)
  | keyEvent (code : Word)
deriving DecidableEq, Repr

/-- One entry of the serialized stream that drives the block (R33, D16). -/
inductive Input where
  /-- a request, or a write to the command register -/
  | transaction (t : Transaction)
  /-- a host read at a controller address (R30, R31, R73) -/
  | busRead (addr : Word)
  /-- a host write at a controller address (R30, R31, R73) -/
  | busWrite (addr w : Word)
  /-- a write to the controller register number `r`, at byte offset `4 * r` -/
  | regWrite (r : Fin 18) (w : Word)
  /-- a write-one-to-clear of the pending flags (R78) -/
  | statusWrite (w : Word)
  /-- a call of the drawing engine or the text renderer (R68 to R71) -/
  | draw (d : DrawCall)
  /-- the controller's tick: in text mode with what the renderer presents (R72) -/
  | tick (text : Option TextScreen) (sinkAttached : Bool)
  /-- the block's reset input (R85) -/
  | resetInput
  /-- the controller's `reset()` (R74) -/
  | controllerReset
  /-- a message from the display sink (R75) -/
  | sinkMessage (m : SinkMessage)
deriving DecidableEq, Repr

end Sys2Proof
end

