-- ==== Sys2Proof/Config.lean ====
section
/-! DEFINITION. What the spec leaves to the implementation: its OPEN parameters and free values as constants
without a body, and the one policy it gives a default for. -/

namespace Sys2Proof

/-- How COPYRGN treats an overlap (spec/93_implementation_defined.md I1). -/
inductive CopyPolicy where
  | inPlace
  | buffered
deriving DecidableEq, Repr

/-- The spec's default, which R58 states (D9). Log entry 9. -/
def Config.copyPolicy : CopyPolicy := .inPlace

/-- FB_WINDOW_BASE: the controller address of window offset 0, OPEN (R31, D12). Log entry 7. -/
opaque Config.fbWindowBase : Word

/-- COPY_P45_SOURCE: which two controller registers supply w and h of the copy-region command, OPEN (R66, D13), as
places in the list of the thirteen registers that `sizeRegister` names. Log entry 8. -/
opaque Config.copyP45Source : Fin 13 × Fin 13

/-- A FREE VALUE: the SETPIX requests the rasterizer emits for a line or circle command (R70 leaves "which pixels
each rasterizer emits" to other blocks, D21 the order of the parameters), for the `n`-th free value, with the parameter
registers p0 to p3, the only ones R66 gives a command. Log entry 11. -/
opaque Config.rasterPixels (k : RasterCommand) (n : Nat) (p0 p1 p2 p3 : Word) : List PixelRequest

/-- A FREE VALUE: whether VERTICAL_BLANK is pending after a tick, for the `n`-th free value. R78 gives the flag to the
tick's scanline bookkeeping, which is the controller's (R16, R83). Log entry 26. -/
opaque Config.verticalBlank (n : Nat) : Bool

end Sys2Proof
end

