-- ==== Sys2Proof/Machine/State.lean ====
section
/-! DEFINITION. The machine's state: the two planes of spec/10_state.md R10, the controller registers and flags its
rules name at the interface, and the model's own streams. Plain data throughout. -/

namespace Sys2Proof.Machine

/-- A plane's contents as (offset, byte) pairs, in the canonical form of `Memory.wf`; an unlisted byte reads as
`Memory.unlisted`. -/
abbrev Memory := List Host.Cell

/-- Something the block puts out. -/
inductive Output where
  /-- the 32-bit response of GETPIX or HOSTRD (R42) -/
  | response (w : Word)
  /-- the bytes a SNAPSHOT delivers (R62) -/
  | frame (bytes : List Byte)
  /-- the swap_done event (R61) -/
  | swapDone
deriving DecidableEq, Repr

/-- INVENTORY.md, "State", lists each field with its rule and its reset value. -/
structure State where
  back      : Memory
  front     : Memory
  regs      : Vector Word 18
  pending   : Byte
  inbox     : List Input
  outputs   : List Output
  freeCount : Nat
deriving DecidableEq, Repr

/-- There is no fault: "The block raises no exception, trap or fault for any request" (R76). Safe. -/
inductive Fault where
deriving DecidableEq, Repr

/-- Why a step has no meaning. -/
inductive Refusal where
  /-- Raised by an arm of `exec` whose instruction has no meaning yet; no arm raises it any more. Safe. -/
  | notModelled (mnemonic : String)
deriving DecidableEq, Repr

/-- Right after construction and reset: both planes zero (R19, R86). The controller's registers and flags are zero
by log entries 5 and 6, and the model's own fields empty by log entries 2, 3 and 11. -/
def State.reset : State where
  back := []
  front := []
  regs := Vector.replicate 18 0#32
  pending := 0#8
  inbox := []
  outputs := []
  freeCount := 0

end Sys2Proof.Machine
end

