-- ==== Sys2Proof/Machine/Flags.lean ====
section
/-! DEFINITION. The controller's pending interrupt flags, as far as they touch this block (spec/48_client_traffic.md R67,
spec/60_exceptions.md R78). The block has no flags of its own (R16). -/

namespace Sys2Proof.Machine

/-- VERTICAL_BLANK: the tick's flag (R78), a free value after each tick (log entry 26). -/
def flagVerticalBlank : Byte := 0x01#8

/-- HORIZONTAL_BLANK: "never set" (R78). -/
def flagHorizontalBlank : Byte := 0x02#8

/-- COMMAND_COMPLETE: after every command, unknown ones included (R67). -/
def flagCommandComplete : Byte := 0x04#8

/-- BUFFER_SWAP: on every swap_done (R67, D14). -/
def flagBufferSwap : Byte := 0x08#8

/-- OR flags into the pending byte (R67). -/
def raiseFlags (pending flags : Byte) : Byte := pending ||| flags

/-- The pending byte with VERTICAL_BLANK as a tick leaves it, every other flag kept (R78, log entry 26). -/
def tickFlags (pending : Byte) (blank : Bool) : Byte :=
  if blank then pending ||| flagVerticalBlank else pending &&& ~~~flagVerticalBlank

/-- Write-one-to-clear of the pending byte (R78). -/
def clearFlags (pending ones : Byte) : Byte := pending &&& ~~~ones

end Sys2Proof.Machine
end

