-- ==== Sys2Proof/WellFormed.lean ====
section
/-! DEFINITION. Which instructions have an encoding: every signed operand fits a 32-bit operand word
(spec/30_encoding.md R44). -/

namespace Sys2Proof

/-- `x` is the value of some operand word: it lies in [-2^31, 2^31 - 1] (R7, R44). -/
def operandFits (x : Int) : Bool :=
  decide (-2147483648 ≤ x) && decide (x ≤ 2147483647)

/-- Every operand of the instruction fits its operand word. -/
def Instr.wf : Instr → Bool
  | .nop | .clear | .swap => true
  | .setpix x y v => [x, y, v].all operandFits
  | .getpix x y => [x, y].all operandFits
  | .hline x1 x2 y v => [x1, x2, y, v].all operandFits
  | .vline x y1 y2 v => [x, y1, y2, v].all operandFits
  | .fillrect x1 y1 x2 y2 v => [x1, y1, x2, y2, v].all operandFits
  | .scrollup n => operandFits n
  | .scrolldn n => operandFits n
  | .copyrgn sx sy dx dy w h => [sx, sy, dx, dy, w, h].all operandFits
  | .hostrd i => operandFits i
  | .hostwr i _ => operandFits i
  | .snapshot | .reset | .reservedF => true
  | .cmdNop | .cmdClear | .cmdSwap | .cmdSetPixel | .cmdLine | .cmdRectOutline | .cmdRectFill => true
  | .cmdCircleOutline | .cmdCircleFill | .cmdCopyRegion => true
  | .cmdTextWriteChar | .cmdTextSetCursor | .cmdTextClear | .cmdTextScrollUp | .cmdTextScrollDown => true

end Sys2Proof
end

