-- ==== Sys2Proof/Decode.lean ====
section
/-! DEFINITION. The decoder and the encoder of spec/30_encoding.md R38 to R46 and of the command values of
spec/48_client_traffic.md R66, and how the words of spec/opcode_table.json are presented. -/

namespace Sys2Proof

/-- Why words carry no instruction. -/
inductive DecodeError where
  /-- The value is no command of R66; the controller ignores it (and still raises COMMAND_COMPLETE). -/
  | unknownCommand (c : Word)
  /-- The words are not the seven words of a request (R38). -/
  | wrongLength (n : Nat)
deriving DecidableEq, Repr

/-- `val(Ak)`: an operand word read as a two's-complement integer (R44). -/
def val (a : Word) : Int := a.toInt

/-- The word whose value is `x`, for `x` in range. -/
def operandWord (x : Int) : Word := BitVec.ofInt 32 x

/-- The field `op` = `H[3:0]` (R39); `H[31:4]` is ignored (R43). -/
def Frame.op (f : Frame) : Nat := f.h.toNat % 16

/-- The operation map of R40: all sixteen values of `op` are decoded, and only the operand words the row names are
read (R41). -/
def decodeRequest (f : Frame) : Instr :=
  match f.op with
  | 0x0 => .nop
  | 0x1 => .clear
  | 0x2 => .swap
  | 0x3 => .setpix (val f.a0) (val f.a1) (val f.a2)
  | 0x4 => .getpix (val f.a0) (val f.a1)
  | 0x5 => .hline (val f.a0) (val f.a1) (val f.a2) (val f.a3)
  | 0x6 => .vline (val f.a0) (val f.a1) (val f.a2) (val f.a3)
  | 0x7 => .fillrect (val f.a0) (val f.a1) (val f.a2) (val f.a3) (val f.a4)
  | 0x8 => .scrollup (val f.a0)
  | 0x9 => .scrolldn (val f.a0)
  | 0xA => .copyrgn (val f.a0) (val f.a1) (val f.a2) (val f.a3) (val f.a4) (val f.a5)
  | 0xB => .hostrd (val f.a0)
  | 0xC => .hostwr (val f.a0) f.a1
  | 0xD => .snapshot
  | 0xE => .reset
  | _ => .reservedF

/-- The command map of R66. The whole 32-bit value is the opcode (D21). -/
def decodeCommand (c : Word) : Except DecodeError Instr :=
  match c.toNat with
  | 0x00 => .ok .cmdNop
  | 0x01 => .ok .cmdClear
  | 0x02 => .ok .cmdSwap
  | 0x03 => .ok .cmdSetPixel
  | 0x04 => .ok .cmdLine
  | 0x05 => .ok .cmdRectOutline
  | 0x06 => .ok .cmdRectFill
  | 0x07 => .ok .cmdCircleOutline
  | 0x08 => .ok .cmdCircleFill
  | 0x09 => .ok .cmdCopyRegion
  | 0x0A => .ok .cmdTextWriteChar
  | 0x0B => .ok .cmdTextSetCursor
  | 0x0C => .ok .cmdTextClear
  | 0x0D => .ok .cmdTextScrollUp
  | 0x0E => .ok .cmdTextScrollDown
  | _ => .error (.unknownCommand c)

/-- Decode what arrived on a port. -/
def decode : Transaction → Except DecodeError Instr
  | .request f => .ok (decodeRequest f)
  | .command c => decodeCommand c

/-- A request from its words in order `H, A0, …, A5`; any other number of words is rejected (R38, R46). -/
def decodeWords : List Word → Except DecodeError Instr
  | [h, a0, a1, a2, a3, a4, a5] => .ok (decodeRequest ⟨h, a0, a1, a2, a3, a4, a5⟩)
  | ws => .error (.wrongLength ws.length)

/-- The frame with `op`, operand values `xs` in order `A0, A1, …`, and zeros elsewhere (R48). -/
def requestFrame (op : Nat) (xs : List Int) : Frame :=
  let a (k : Nat) : Word := operandWord (xs.getD k 0)
  ⟨BitVec.ofNat 32 op, a 0, a 1, a 2, a 3, a 4, a 5⟩

/-- The words of an instruction, from the tables of R40 and R66; unused bits and words are 0 (R48). -/
def encode : Instr → Transaction
  | .nop => .request (requestFrame 0x0 [])
  | .clear => .request (requestFrame 0x1 [])
  | .swap => .request (requestFrame 0x2 [])
  | .setpix x y v => .request (requestFrame 0x3 [x, y, v])
  | .getpix x y => .request (requestFrame 0x4 [x, y])
  | .hline x1 x2 y v => .request (requestFrame 0x5 [x1, x2, y, v])
  | .vline x y1 y2 v => .request (requestFrame 0x6 [x, y1, y2, v])
  | .fillrect x1 y1 x2 y2 v => .request (requestFrame 0x7 [x1, y1, x2, y2, v])
  | .scrollup n => .request (requestFrame 0x8 [n])
  | .scrolldn n => .request (requestFrame 0x9 [n])
  | .copyrgn sx sy dx dy w h => .request (requestFrame 0xA [sx, sy, dx, dy, w, h])
  | .hostrd i => .request (requestFrame 0xB [i])
  | .hostwr i w => .request ⟨0xC#32, operandWord i, w, 0#32, 0#32, 0#32, 0#32⟩
  | .snapshot => .request (requestFrame 0xD [])
  | .reset => .request (requestFrame 0xE [])
  | .reservedF => .request (requestFrame 0xF [])
  | .cmdNop => .command 0x00#32
  | .cmdClear => .command 0x01#32
  | .cmdSwap => .command 0x02#32
  | .cmdSetPixel => .command 0x03#32
  | .cmdLine => .command 0x04#32
  | .cmdRectOutline => .command 0x05#32
  | .cmdRectFill => .command 0x06#32
  | .cmdCircleOutline => .command 0x07#32
  | .cmdCircleFill => .command 0x08#32
  | .cmdCopyRegion => .command 0x09#32
  | .cmdTextWriteChar => .command 0x0A#32
  | .cmdTextSetCursor => .command 0x0B#32
  | .cmdTextClear => .command 0x0C#32
  | .cmdTextScrollUp => .command 0x0D#32
  | .cmdTextScrollDown => .command 0x0E#32

/-- The value of an operand literal of a request line: a signed decimal is its own value, a hexadecimal literal the
value of its 32-bit word (R44, R48). R48 does not say what a literal that is neither encodes to: the model answers none
for one below -2^31 or above 2^32 - 1 (DESIGN CHOICE, log entry 25). -/
def literalValue (x : Int) : Option Int :=
  if -2147483648 ≤ x ∧ x ≤ 4294967295 then some (val (operandWord x)) else none

/-- The requests of a mnemonic with operand values in order (R48), with the pseudo-operations of R49. -/
def assembleValues (mnemonic : String) (operands : List Int) : Option (List Instr) :=
  match mnemonic, operands with
  | "NOP", [] => some [.nop]
  | "CLEAR", [] => some [.clear]
  | "SWAP", [] => some [.swap]
  | "SETPIX", [x, y, v] => some [.setpix x y v]
  | "GETPIX", [x, y] => some [.getpix x y]
  | "HLINE", [x1, x2, y, v] => some [.hline x1 x2 y v]
  | "VLINE", [x, y1, y2, v] => some [.vline x y1 y2 v]
  | "FILLRECT", [x1, y1, x2, y2, v] => some [.fillrect x1 y1 x2 y2 v]
  | "SCROLLUP", [n] => some [.scrollup n]
  | "SCROLLDN", [n] => some [.scrolldn n]
  | "COPYRGN", [sx, sy, dx, dy, w, h] => some [.copyrgn sx sy dx dy w h]
  | "HOSTRD", [i] => some [.hostrd i]
  | "HOSTWR", [i, w] => some [.hostwr i (operandWord w)]
  | "SNAPSHOT", [] => some [.snapshot]
  | "RESET", [] => some [.reset]
  | "PSET", [x, y] => some [.setpix x y 1]
  | "PCLR", [x, y] => some [.setpix x y 0]
  | "RECTWH", [x, y, w, h, v] =>
    some (if 1 ≤ w ∧ 1 ≤ h then [.fillrect x y (x + w - 1) (y + h - 1) v] else [])
  | "PUBLISH", [] => some [.swap]
  | _, _ => none

/-- A line of the spec's request notation, given as its mnemonic and operand literals in order (R48). A line with a
literal that fits no operand word is rejected (DESIGN CHOICE, log entry 25). -/
def assemble (mnemonic : String) (literals : List Int) : Option (List Instr) :=
  (literals.mapM literalValue).bind (assembleValues mnemonic)

/-- The frame whose bits are `w`, bit 0 the least significant bit of `H` and each later word's bits counting on. -/
def frameOfNat (w : Nat) : Frame :=
  let word (k : Nat) : Word := BitVec.ofNat 32 (w / 2 ^ (32 * k))
  ⟨word 0, word 1, word 2, word 3, word 4, word 5, word 6⟩

/-- How a word of spec/opcode_table.json is presented to the block. The table's two kinds of rows overlap: a command
row fixes all 32 bits of a value of 32 bits, a request row fixes four bits of a header. A value of exactly 32 bits
that is one of the fifteen commands of R66 is presented at the command register, every other word at the request
port. Log entry 4. -/
def tableTransaction (nbits w : Nat) : Transaction :=
  let bits := w % 2 ^ nbits
  if nbits = 32 ∧ bits ≤ 0x0E then .command (BitVec.ofNat 32 bits) else .request (frameOfNat bits)

/-- The instruction the decoder reads from a word of the opcode table. -/
def decodeTableWord (nbits w : Nat) : Option Instr :=
  match decode (tableTransaction nbits w) with
  | .ok i => some i
  | .error _ => none

end Sys2Proof
end

