-- ==== Sys2Proof/Machine/Operands.lean ====
section
/-! DEFINITION. Operand forms: the pixel grid and its byte and bit addresses (spec/00_scope.md R8), the reductions of
value operands (spec/30_encoding.md R45, spec/20_memory.md R24), and the point lists the span and fill rules loop
over (spec/41_span_ops.md). -/

namespace Sys2Proof.Machine

/-- A pixel-value operand reduced to one bit: non-zero sets (R45, D4). -/
def pixelBit (v : Int) : Bool := decide (v ≠ 0)

/-- The byte a window write stores: bits [7:0]; bits [31:8] are discarded (R24, R60). -/
def lowByte (w : Word) : Byte := w.setWidth 8

/-- `zext_32` of a byte (R24, R42). -/
def byteWord (b : Byte) : Word := b.setWidth 32

/-- `zext_32` of a pixel bit (R42). -/
def bitWord (b : Bool) : Word := if b then 1#32 else 0#32

/-- `InBounds(x, y)` (R8). -/
abbrev InBounds (x y : Int) : Prop := 0 ≤ x ∧ x < 640 ∧ 0 ≤ y ∧ y < 200

/-- A byte offset of a plane: 0 to 15,999 (R10, R20). -/
abbrev InPlane (i : Int) : Prop := 0 ≤ i ∧ i < 16000

/-- `ByteIndex(x, y)` = `80*y + (x div 8)` (R8, R11). -/
def byteIndex (x y : Int) : Nat := (80 * y + x / 8).toNat

/-- `BitPos(x)` = `7 - (x mod 8)`: the leftmost pixel is the most significant bit (R8, R22). -/
def bitPos (x : Int) : Nat := (7 - x % 8).toNat

/-- The integers from `lo` to `hi` in rising order; none if `lo > hi` (R9). -/
def intRange (lo hi : Int) : List Int :=
  (List.range (hi + 1 - lo).toNat).map fun (k : Nat) => lo + Int.ofNat k

/-- The grid points a horizontal run names, normalised and clipped (R52). -/
def hlinePoints (x1 x2 y : Int) : List (Int × Int) :=
  if 0 ≤ y ∧ y < 200 then
    (intRange (max (min x1 x2) 0) (min (max x1 x2) 639)).map fun x => (x, y)
  else []

/-- The grid points a vertical run names, normalised and clipped (R53). -/
def vlinePoints (x y1 y2 : Int) : List (Int × Int) :=
  if 0 ≤ x ∧ x < 640 then
    (intRange (max (min y1 y2) 0) (min (max y1 y2) 199)).map fun y => (x, y)
  else []

/-- The grid points of a filled rectangle given by two opposite corners, row by row, clipped (R54). -/
def rectPoints (x1 y1 x2 y2 : Int) : List (Int × Int) :=
  (intRange (max (min y1 y2) 0) (min (max y1 y2) 199)).flatMap fun y =>
    (intRange (max (min x1 x2) 0) (min (max x1 x2) 639)).map fun x => (x, y)

/-- The iterations of a copy whose source and destination both lie in the grid, in the rule's order: rows top to
bottom, columns left to right. R58 lets a model keep only these. -/
def copySteps (sx sy dx dy w h : Int) : List (Int × Int) :=
  (intRange (max 0 (max (-sy) (-dy))) (min (h - 1) (min (199 - sy) (199 - dy)))).flatMap fun j =>
    (intRange (max 0 (max (-sx) (-dx))) (min (w - 1) (min (639 - sx) (639 - dx)))).map fun i => (i, j)

/-- The window offset of a controller address, when the address lies in the window: `FB_WINDOW_BASE + i` is offset
`i` (R31). -/
def windowOffset (addr : Word) : Option Int :=
  let i : Int := (addr.toNat : Int) - (Config.fbWindowBase.toNat : Int)
  if InPlane i then some i else none

end Sys2Proof.Machine
end

