-- ==== Sys2Proof/Machine/Ops.lean ====
section
/-! DEFINITION. The operations over planes and over the state that the meanings share. The block takes no exception and
returns from none (spec/60_exceptions.md R76, R80, R81), so there is no operation for either. -/

namespace Sys2Proof.Machine

/-! ## A plane as bytes (R8, R10, R20) -/

/-- What an unlisted byte reads as: planes are zero-filled (R19). -/
abbrev Memory.unlisted : Byte := 0#8

/-- `PlaneRead(P, i)` (R8). -/
def Memory.read (m : Memory) (i : Nat) : Byte :=
  match m with
  | [] => Memory.unlisted
  | (a, b) :: rest => if a = i then b else Memory.read rest i

/-- `PlaneWrite(P, i, b)` (R8), keeping the list sorted and without entries equal to an unlisted byte. -/
def Memory.write (m : Memory) (i : Nat) (b : Byte) : Memory :=
  match m with
  | [] => if b = Memory.unlisted then [] else [(i, b)]
  | (a, c) :: rest =>
    if i < a then (if b = Memory.unlisted then (a, c) :: rest else (i, b) :: (a, c) :: rest)
    else if i = a then (if b = Memory.unlisted then rest else (i, b) :: rest)
    else (a, c) :: Memory.write rest i b

/-- The canonical form from address `lo` on: addresses rise strictly, stay below 16,000 (R10), and no entry equals
what an unlisted byte reads as. -/
def Memory.wfFrom (lo : Nat) : Memory → Bool
  | [] => true
  | (a, b) :: rest => decide (lo ≤ a) && decide (a < 16000) && decide (b ≠ Memory.unlisted) && Memory.wfFrom (a + 1) rest

/-- The canonical form of a plane. -/
def Memory.wf (m : Memory) : Bool := Memory.wfFrom 0 m

/-- All 16,000 bytes in offset order (R23, R62). -/
def Memory.bytes (m : Memory) : List Byte := (List.range 16000).map m.read

/-- The bytes moved `k` offsets down, those that would leave the plane dropped, zeros behind (R56). -/
def Memory.moveDown (m : Memory) (k : Nat) : Memory :=
  m.filterMap fun c => if k ≤ c.1 ∧ c.1 < 16000 then some (c.1 - k, c.2) else none

/-- The bytes moved `k` offsets up, those that would leave the plane dropped, zeros before (R57). -/
def Memory.moveUp (m : Memory) (k : Nat) : Memory :=
  m.filterMap fun c => if c.1 + k < 16000 then some (c.1 + k, c.2) else none

/-! ## A plane as pixels (R8, R11) -/

/-- The byte with only bit `k` set (R7). -/
def bitMask (k : Nat) : Byte := 1#8 <<< k

/-- A byte with bit `k` set to `b` and the other seven bits kept (R50). -/
def setByteBit (c : Byte) (k : Nat) (b : Bool) : Byte :=
  if b then c ||| bitMask k else c &&& ~~~(bitMask k)

/-- `Pix(P, x, y)`, for a point of the grid (R8). -/
def Memory.pix (m : Memory) (x y : Int) : Bool := (m.read (byteIndex x y)).getLsbD (bitPos x)

/-- `SetPix(P, x, y, b)`, for a point of the grid (R8). -/
def Memory.setPix (m : Memory) (x y : Int) (b : Bool) : Memory :=
  m.write (byteIndex x y) (setByteBit (m.read (byteIndex x y)) (bitPos x) b)

/-- A pixel read that answers clear outside the grid (R27, R51). -/
def Memory.getPixel (m : Memory) (x y : Int) : Bool := if InBounds x y then m.pix x y else false

/-- A pixel write that is dropped outside the grid (R27, R50). -/
def Memory.setPixel (m : Memory) (x y : Int) (b : Bool) : Memory := if InBounds x y then m.setPix x y b else m

/-- A sequence of pixel writes, each seeing the earlier ones (R9). -/
def Memory.plot (m : Memory) (pixels : List (Int × Int × Bool)) : Memory :=
  pixels.foldl (fun acc p => acc.setPixel p.1 p.2.1 p.2.2) m

/-- One value written to every point of a list, in its order. -/
def Memory.paint (m : Memory) (points : List (Int × Int)) (b : Bool) : Memory :=
  m.plot (points.map fun p => (p.1, p.2, b))

/-- A horizontal run (R52). -/
def Memory.hline (m : Memory) (x1 x2 y : Int) (b : Bool) : Memory := m.paint (hlinePoints x1 x2 y) b

/-- A vertical run (R53). -/
def Memory.vline (m : Memory) (x y1 y2 : Int) (b : Bool) : Memory := m.paint (vlinePoints x y1 y2) b

/-- A filled rectangle between two opposite corners, both inclusive (R54). -/
def Memory.fillRect (m : Memory) (x1 y1 x2 y2 : Int) (b : Bool) : Memory := m.paint (rectPoints x1 y1 x2 y2) b

/-- Up by `n` rows: nothing for `n <= 0`, everything gone for `n >= 200` (R56, D8). -/
def Memory.scrollUp (m : Memory) (n : Int) : Memory :=
  if 1 ≤ n then m.moveDown (80 * min n 200).toNat else m

/-- Down by `n` rows: nothing for `n <= 0`, everything gone for `n >= 200` (R57, D8). -/
def Memory.scrollDown (m : Memory) (n : Int) : Memory :=
  if 1 ≤ n then m.moveUp (80 * min n 200).toNat else m

/-- The copy of a rectangle within a plane (R58). In place, each iteration reads what the earlier ones left;
buffered is the alternative of spec/93_implementation_defined.md I1. -/
def Memory.copyRegion (policy : CopyPolicy) (m : Memory) (sx sy dx dy w h : Int) : Memory :=
  (copySteps sx sy dx dy w h).foldl
    (fun acc p =>
      let source := match policy with
        | .inPlace => acc
        | .buffered => m
      acc.setPix (dx + p.1) (dy + p.2) (source.pix (sx + p.1) (sy + p.2)))
    m

/-- A window read: the byte, or 0 for an offset outside the plane (R26, R59). -/
def Memory.windowRead (m : Memory) (i : Int) : Byte := if InPlane i then m.read i.toNat else 0#8

/-- A window write: nothing for an offset outside the plane (R26, R60). -/
def Memory.windowWrite (m : Memory) (i : Int) (b : Byte) : Memory := if InPlane i then m.write i.toNat b else m

/-! ## Named updates of the state -/

/-- Replace the back plane. -/
def State.setBack (s : State) (m : Memory) : State := { s with back := m }

/-- Replace the front plane: SWAP and RESET only (R12). -/
def State.setFront (s : State) (m : Memory) : State := { s with front := m }

/-- Put something out, after everything put out before (R42, R61, R62). -/
def State.emit (s : State) (o : Output) : State := { s with outputs := s.outputs ++ [o] }

/-- Raise pending flags (R67). -/
def State.raise (s : State) (flags : Byte) : State := { s with pending := raiseFlags s.pending flags }

/-- Clear pending flags by writing ones (R78). -/
def State.clearPending (s : State) (ones : Byte) : State := { s with pending := clearFlags s.pending ones }

/-- Leave VERTICAL_BLANK as a tick does (R78, log entry 26). -/
def State.setBlank (s : State) (blank : Bool) : State := { s with pending := tickFlags s.pending blank }

/-- Write a controller register. -/
def State.setReg (s : State) (r : Fin 18) (w : Word) : State := { s with regs := s.regs.set r w }

/-- Leave `rest` as the inputs still to perform. -/
def State.setInbox (s : State) (rest : List Input) : State := { s with inbox := rest }

/-- Move to the next free value (log entry 11). -/
def State.useFree (s : State) : State := { s with freeCount := s.freeCount + 1 }

/-! ## Operations of the state -/

/-- The number of the command register, at byte offset 0x20 (R66). -/
def commandReg : Fin 18 := 8

/-- The number of parameter register p0 to p3, at byte offsets 0x24 to 0x30 (R66). -/
def paramReg (k : Fin 4) : Fin 18 := ⟨9 + k.val, by omega⟩

/-- The registers that may supply w and h of copy-region (D13): all but frame-buffer start and end, from which this
block takes no input (R17), and palette and border, which do not enter the planes (R18, 90 C3). Log entry 8. -/
def sizeRegister (k : Fin 13) : Fin 18 :=
  (#v[0, 1, 4, 5, 6, 7, 8, 9, 10, 11, 12, 16, 17] : Vector (Fin 18) 13).get k

/-- The value of a controller register as an operand (R44, R66, log entry 23). -/
def State.regVal (s : State) (r : Fin 18) : Int := val (s.regs.get r)

/-- The value of a parameter register (R66). -/
def State.param (s : State) (k : Fin 4) : Int := s.regVal (paramReg k)

/-- Copy the whole back plane to the front plane and signal swap_done, on which the controller raises BUFFER_SWAP
(R61, R67). -/
def State.swapPlanes (s : State) : State := ((s.setFront s.back).emit .swapDone).raise flagBufferSwap

/-- Clear both planes (R63, R85). -/
def State.clearPlanes (s : State) : State := (s.setBack []).setFront []

/-- Deliver a value copy of the front plane (R62). -/
def State.snapshot (s : State) : State := s.emit (.frame s.front.bytes)

/-- The end of every command: COMMAND_COMPLETE (R67). -/
def State.complete (s : State) : State := s.raise flagCommandComplete

end Sys2Proof.Machine
end

