-- ==== Sys2Proof/Machine/BufferOps.lean ====
section
/-! DEFINITION. SWAP, SNAPSHOT, RESET, NOP and the reserved operation (spec/44_buffer_ops.md R61 to R65). -/

namespace Sys2Proof.Machine

/-- SWAP (R61). -/
def execSwap (s : State) : Host.Outcome State Fault Refusal := .next s.swapPlanes

/-- SNAPSHOT (R62). -/
def execSnapshot (s : State) : Host.Outcome State Fault Refusal := .next s.snapshot

/-- RESET (R63). -/
def execReset (s : State) : Host.Outcome State Fault Refusal := .next s.clearPlanes

/-- NOP (R64). -/
def execNop (s : State) : Host.Outcome State Fault Refusal := .next s

/-- The reserved `op` 0xF: no state change, no response (R65, D15). Log entry 10. -/
def execReservedF (s : State) : Host.Outcome State Fault Refusal := .next s

end Sys2Proof.Machine
end

