-- ==== Sys2Proof/Machine/Clients.lean ====
section
/-! DEFINITION. The requests the client blocks issue, as operations on the back plane (spec/48_client_traffic.md R68 to
R72). -/

namespace Sys2Proof.Machine

/-- The width-and-height rectangle fill becomes FILLRECT on its corners; an empty rectangle issues nothing
(R49 RECTWH, R68, D6). -/
def Memory.fillRectangle (m : Memory) (x y w h v : Int) : Memory :=
  if 1 ≤ w ∧ 1 ≤ h then m.fillRect x y (x + w - 1) (y + h - 1) (pixelBit v) else m

/-- The rectangle outline: two HLINEs, and two VLINEs over the interior rows when the height is above 2; an empty
rectangle issues nothing (R69, D6). -/
def Memory.drawRectangle (m : Memory) (x y w h v : Int) : Memory :=
  if 1 ≤ w ∧ 1 ≤ h then
    let x2 := x + w - 1
    let y2 := y + h - 1
    let b := pixelBit v
    let edges := (m.hline x x2 y b).hline x x2 y2 b
    if 2 < h then (edges.vline x (y + 1) (y2 - 1) b).vline x2 (y + 1) (y2 - 1) b else edges
  else m

/-- SETPIX requests in their order (R70). -/
def Memory.plotRequests (m : Memory) (pixels : List PixelRequest) : Memory :=
  m.plot (pixels.map fun p => (val p.x, val p.y, pixelBit (val p.v)))

/-- The pixel value of column `c` of row `r` of a rendered character (R71): `fg` and `bg` are exchanged first under
REVERSE, row 7 is all `fg` under UNDERLINE, and the glyph bit of column `c` is bit `7 - c`. -/
def characterValue (cell : TextCell) (r c : Fin 8) : Int :=
  let fg := if cell.attrs.reverse then cell.bg else cell.fg
  let bg := if cell.attrs.reverse then cell.fg else cell.bg
  if cell.attrs.underline = true ∧ r = 7 then fg
  else if (cell.glyph.get r).getLsbD (7 - c.val) then fg else bg

/-- The 64 SETPIX requests of one character with its corner at (x, y) (R71). -/
def characterPixels (x y : Int) (cell : TextCell) : List (Int × Int × Bool) :=
  (List.finRange 8).flatMap fun r =>
    (List.finRange 8).map fun c => (x + (c.val : Int), y + (r.val : Int), pixelBit (characterValue cell r c))

/-- The SETPIX requests of a full repaint: cell (cx, cy) at pixel (8*cx, 8*cy), the cells row by row
(R72, D23). -/
def screenPixels (screen : TextScreen) : List (Int × Int × Bool) :=
  (List.finRange 2000).flatMap fun k =>
    characterPixels (8 * ((k.val % 80 : Nat) : Int)) (8 * ((k.val / 80 : Nat) : Int)) (screen.cells.get k)

/-- The cursor overlay: GETPIX then SETPIX of the inverted value, for each pixel of the cell (R72). -/
def Memory.invertCell (m : Memory) (cx : Fin 80) (cy : Fin 25) : Memory :=
  (List.finRange 8).foldl (fun rows r =>
    (List.finRange 8).foldl (fun acc c =>
      let px : Int := 8 * (cx.val : Int) + (c.val : Int)
      let py : Int := 8 * (cy.val : Int) + (r.val : Int)
      acc.setPixel px py (!acc.getPixel px py)) rows) m

/-- The text-mode render: the full repaint, then the cursor (R72). -/
def Memory.render (m : Memory) (screen : TextScreen) : Memory :=
  let painted := m.plot (screenPixels screen)
  match screen.cursor with
  | some (cx, cy) => painted.invertCell cx cy
  | none => painted

/-- What a drawing-engine or text-renderer call does to the back plane (R68 to R71). -/
def Memory.draw (m : Memory) : DrawCall → Memory
  | .fillRectangle x y w h v => m.fillRectangle x y w h v
  | .drawRectangle x y w h v => m.drawRectangle x y w h v
  | .plot pixels => m.plotRequests pixels
  | .renderCharacter x y cell => m.plot (characterPixels x y cell)

/-- The controller's own part of a tick, as far as it is state of this model: VERTICAL_BLANK, a free value (R78, log
entry 26). -/
def State.blankTick (s : State) : State := (s.setBlank (Config.verticalBlank s.freeCount)).useFree

/-- The controller's tick: its scanline bookkeeping, in text mode a render, then a SNAPSHOT for an attached sink. No
SWAP (R72, R92). -/
def State.tick (s : State) (text : Option TextScreen) (sinkAttached : Bool) : State :=
  let ticked := s.blankTick
  let rendered := match text with
    | some screen => ticked.setBack (ticked.back.render screen)
    | none => ticked
  if sinkAttached then rendered.snapshot else rendered

/-- A line or circle command's pixels, emitted by a rasterizer outside this block: a free value (R70, log
entry 11). -/
def State.rasterize (s : State) (k : RasterCommand) : State :=
  let p (j : Fin 4) : Word := s.regs.get (paramReg j)
  (s.setBack (s.back.plotRequests (Config.rasterPixels k s.freeCount (p 0) (p 1) (p 2) (p 3)))).useFree

end Sys2Proof.Machine
end

