-- ==== Sys2Proof/Machine/Commands.lean ====
section
/-! DEFINITION. The controller's commands: the requests each causes, then COMMAND_COMPLETE
(spec/48_client_traffic.md R66 to R70). The text commands change the text plane, which is not in this block
(spec/00_scope.md R4), and issue no request. -/

namespace Sys2Proof.Machine

/-- 0x00 no-op. -/
def execCmdNop (s : State) : Host.Outcome State Fault Refusal := .next s.complete

/-- 0x01 clear: CLEAR. -/
def execCmdClear (s : State) : Host.Outcome State Fault Refusal := .next (s.setBack []).complete

/-- 0x02 swap: SWAP. -/
def execCmdSwap (s : State) : Host.Outcome State Fault Refusal := .next s.swapPlanes.complete

/-- 0x03 set-pixel: SETPIX p0, p1, p2. -/
def execCmdSetPixel (s : State) : Host.Outcome State Fault Refusal :=
  .next (s.setBack (s.back.setPixel (s.param 0) (s.param 1) (pixelBit (s.param 2)))).complete

/-- 0x04 line: the line rasterizer's SETPIX requests (R70). -/
def execCmdLine (s : State) : Host.Outcome State Fault Refusal := .next (s.rasterize .line).complete

/-- 0x05 rect-outline with (x, y, w, h) in p0 to p3, drawn with value 1 (R69, D21). -/
def execCmdRectOutline (s : State) : Host.Outcome State Fault Refusal :=
  .next (s.setBack (s.back.drawRectangle (s.param 0) (s.param 1) (s.param 2) (s.param 3) 1)).complete

/-- 0x06 rect-fill with (x, y, w, h) in p0 to p3, drawn with value 1 (R68, D21). -/
def execCmdRectFill (s : State) : Host.Outcome State Fault Refusal :=
  .next (s.setBack (s.back.fillRectangle (s.param 0) (s.param 1) (s.param 2) (s.param 3) 1)).complete

/-- 0x07 circle-outline: the circle rasterizer's SETPIX requests (R70). -/
def execCmdCircleOutline (s : State) : Host.Outcome State Fault Refusal :=
  .next (s.rasterize .circleOutline).complete

/-- 0x08 circle-fill: the circle rasterizer's SETPIX requests (R70). -/
def execCmdCircleFill (s : State) : Host.Outcome State Fault Refusal :=
  .next (s.rasterize .circleFill).complete

/-- 0x09 copy-region: COPYRGN p0, p1, p2, p3 with w and h from the two registers COPY_P45_SOURCE names (D13). -/
def execCmdCopyRegion (s : State) : Host.Outcome State Fault Refusal :=
  .next (s.setBack (Memory.copyRegion Config.copyPolicy s.back (s.param 0) (s.param 1) (s.param 2) (s.param 3)
    (s.regVal (sizeRegister Config.copyP45Source.1)) (s.regVal (sizeRegister Config.copyP45Source.2)))).complete

/-- 0x0A text-write-char: no request. -/
def execCmdTextWriteChar (s : State) : Host.Outcome State Fault Refusal := .next s.complete

/-- 0x0B text-set-cursor: no request. -/
def execCmdTextSetCursor (s : State) : Host.Outcome State Fault Refusal := .next s.complete

/-- 0x0C text-clear: no request. -/
def execCmdTextClear (s : State) : Host.Outcome State Fault Refusal := .next s.complete

/-- 0x0D text-scroll-up: no request. -/
def execCmdTextScrollUp (s : State) : Host.Outcome State Fault Refusal := .next s.complete

/-- 0x0E text-scroll-down: no request. -/
def execCmdTextScrollDown (s : State) : Host.Outcome State Fault Refusal := .next s.complete

end Sys2Proof.Machine
end

