-- ==== Sys2Proof/Machine/HostPort.lean ====
section
/-! DEFINITION. HOSTRD and HOSTWR (spec/43_host_port.md R59, R60). -/

namespace Sys2Proof.Machine

/-- HOSTRD reads the front plane (R59). -/
def execHostrd (i : Int) (s : State) : Host.Outcome State Fault Refusal :=
  .next (s.emit (.response (byteWord (s.front.windowRead i))))

/-- HOSTWR writes the back plane (R60). -/
def execHostwr (i : Int) (w : Word) (s : State) : Host.Outcome State Fault Refusal :=
  .next (s.setBack (s.back.windowWrite i (lowByte w)))

end Sys2Proof.Machine
end

