-- ==== Sys2Proof/Machine/PixelOps.lean ====
section
/-! DEFINITION. SETPIX and GETPIX (spec/40_pixel_ops.md R50, R51). -/

namespace Sys2Proof.Machine

/-- SETPIX (R50). -/
def execSetpix (x y v : Int) (s : State) : Host.Outcome State Fault Refusal :=
  .next (s.setBack (s.back.setPixel x y (pixelBit v)))

/-- GETPIX reads the back plane (R51). -/
def execGetpix (x y : Int) (s : State) : Host.Outcome State Fault Refusal :=
  .next (s.emit (.response (bitWord (s.back.getPixel x y))))

end Sys2Proof.Machine
end

