-- ==== Sys2Proof/Machine/PlaneOps.lean ====
section
/-! DEFINITION. SCROLLUP, SCROLLDN and COPYRGN (spec/42_plane_ops.md R56 to R58). -/

namespace Sys2Proof.Machine

/-- SCROLLUP (R56). -/
def execScrollup (n : Int) (s : State) : Host.Outcome State Fault Refusal :=
  .next (s.setBack (s.back.scrollUp n))

/-- SCROLLDN (R57). -/
def execScrolldn (n : Int) (s : State) : Host.Outcome State Fault Refusal :=
  .next (s.setBack (s.back.scrollDown n))

/-- COPYRGN (R58). -/
def execCopyrgn (sx sy dx dy w h : Int) (s : State) : Host.Outcome State Fault Refusal :=
  .next (s.setBack (Memory.copyRegion Config.copyPolicy s.back sx sy dx dy w h))

end Sys2Proof.Machine
end

