-- ==== Sys2Proof/Machine/SpanOps.lean ====
section
/-! DEFINITION. HLINE, VLINE, FILLRECT and CLEAR (spec/41_span_ops.md R52 to R55). -/

namespace Sys2Proof.Machine

/-- HLINE (R52). -/
def execHline (x1 x2 y v : Int) (s : State) : Host.Outcome State Fault Refusal :=
  .next (s.setBack (s.back.hline x1 x2 y (pixelBit v)))

/-- VLINE (R53). -/
def execVline (x y1 y2 v : Int) (s : State) : Host.Outcome State Fault Refusal :=
  .next (s.setBack (s.back.vline x y1 y2 (pixelBit v)))

/-- FILLRECT (R54). -/
def execFillrect (x1 y1 x2 y2 v : Int) (s : State) : Host.Outcome State Fault Refusal :=
  .next (s.setBack (s.back.fillRect x1 y1 x2 y2 (pixelBit v)))

/-- CLEAR: the back plane only (R55). -/
def execClear (s : State) : Host.Outcome State Fault Refusal :=
  .next (s.setBack [])

end Sys2Proof.Machine
end

