-- ==== Sys2Proof/Machine/Dispatch.lean ====
section
/-! DEFINITION. One arm per instruction, each a direct call of its meaning. -/

namespace Sys2Proof.Machine

def exec (i : Instr) (s : State) : Host.Outcome State Fault Refusal :=
  match i with
  | .nop => Sys2Proof.Machine.execNop s
  | .clear => Sys2Proof.Machine.execClear s
  | .swap => Sys2Proof.Machine.execSwap s
  | .setpix x y v => Sys2Proof.Machine.execSetpix x y v s
  | .getpix x y => Sys2Proof.Machine.execGetpix x y s
  | .hline x1 x2 y v => Sys2Proof.Machine.execHline x1 x2 y v s
  | .vline x y1 y2 v => Sys2Proof.Machine.execVline x y1 y2 v s
  | .fillrect x1 y1 x2 y2 v => Sys2Proof.Machine.execFillrect x1 y1 x2 y2 v s
  | .scrollup n => Sys2Proof.Machine.execScrollup n s
  | .scrolldn n => Sys2Proof.Machine.execScrolldn n s
  | .copyrgn sx sy dx dy w h => Sys2Proof.Machine.execCopyrgn sx sy dx dy w h s
  | .hostrd offset => Sys2Proof.Machine.execHostrd offset s
  | .hostwr offset w => Sys2Proof.Machine.execHostwr offset w s
  | .snapshot => Sys2Proof.Machine.execSnapshot s
  | .reset => Sys2Proof.Machine.execReset s
  | .reservedF => Sys2Proof.Machine.execReservedF s
  | .cmdNop => Sys2Proof.Machine.execCmdNop s
  | .cmdClear => Sys2Proof.Machine.execCmdClear s
  | .cmdSwap => Sys2Proof.Machine.execCmdSwap s
  | .cmdSetPixel => Sys2Proof.Machine.execCmdSetPixel s
  | .cmdLine => Sys2Proof.Machine.execCmdLine s
  | .cmdRectOutline => Sys2Proof.Machine.execCmdRectOutline s
  | .cmdRectFill => Sys2Proof.Machine.execCmdRectFill s
  | .cmdCircleOutline => Sys2Proof.Machine.execCmdCircleOutline s
  | .cmdCircleFill => Sys2Proof.Machine.execCmdCircleFill s
  | .cmdCopyRegion => Sys2Proof.Machine.execCmdCopyRegion s
  | .cmdTextWriteChar => Sys2Proof.Machine.execCmdTextWriteChar s
  | .cmdTextSetCursor => Sys2Proof.Machine.execCmdTextSetCursor s
  | .cmdTextClear => Sys2Proof.Machine.execCmdTextClear s
  | .cmdTextScrollUp => Sys2Proof.Machine.execCmdTextScrollUp s
  | .cmdTextScrollDown => Sys2Proof.Machine.execCmdTextScrollDown s

end Sys2Proof.Machine
end

