-- ==== Sys2Proof/Machine/Inputs.lean ====
section
/-! DEFINITION. What one input of the serialized stream does (spec/48_client_traffic.md R66, R73 to R75,
spec/70_reset_and_hazards.md R85). -/

namespace Sys2Proof.Machine

/-- A write to the command register: the value is held there, the command's requests run, and an unknown opcode is
ignored but for COMMAND_COMPLETE (R66, R67). -/
def performCommand (c : Word) (s : State) : Host.Outcome State Fault Refusal :=
  match decodeCommand c with
  | .ok i => exec i (s.setReg commandReg c)
  | .error _ => .next (s.setReg commandReg c).complete

/-- A request on the request port, or a command on the command register. -/
def performTransaction (t : Transaction) (s : State) : Host.Outcome State Fault Refusal :=
  match t with
  | .request f => exec (decodeRequest f) s
  | .command c => performCommand c s

/-- A host read at window offset i is HOSTRD i (R73); an address outside the window is not this block's. -/
def performBusRead (addr : Word) (s : State) : Host.Outcome State Fault Refusal :=
  match windowOffset addr with
  | some i => exec (.hostrd i) s
  | none => .next s

/-- A host write at window offset i is HOSTWR i, w (R73); an address outside the window is not this block's. -/
def performBusWrite (addr w : Word) (s : State) : Host.Outcome State Fault Refusal :=
  match windowOffset addr with
  | some i => exec (.hostwr i w) s
  | none => .next s

/-- A controller register write; at the command register it is a command. -/
def performRegWrite (r : Fin 18) (w : Word) (s : State) : Host.Outcome State Fault Refusal :=
  if r = commandReg then performCommand w s else .next (s.setReg r w)

/-- The controller's `reset()`: its registers and flags as after construction, and RESET (R74, log entry 16). -/
def State.controllerReset (s : State) : State :=
  { s.clearPlanes with regs := State.reset.regs, pending := State.reset.pending }

/-- One input performed whole, before the next begins (R28). -/
def perform (x : Input) (s : State) : Host.Outcome State Fault Refusal :=
  match x with
  | .transaction t => performTransaction t s
  | .busRead addr => performBusRead addr s
  | .busWrite addr w => performBusWrite addr w s
  | .regWrite r w => performRegWrite r w s
  | .statusWrite w => .next (s.clearPending (lowByte w))
  | .draw d => .next (s.setBack (s.back.draw d))
  | .tick text sinkAttached => .next (s.tick text sinkAttached)
  | .resetInput => exec .reset s
  | .controllerReset => .next s.controllerReset
  | .sinkMessage _ => .next s

/-- `t` placed where the next step takes its input from. -/
def State.present (s : State) (t : Transaction) : State := s.setInbox (.transaction t :: s.inbox)

end Sys2Proof.Machine
end

