-- ==== Sys2Proof/Machine/Step.lean ====
section
/-! DEFINITION. One step: the next input of the stream is performed; with none, the block is idle
(spec/20_memory.md R33, spec/60_exceptions.md R84). -/

namespace Sys2Proof.Machine

def step (s : State) : Host.Outcome State Fault Refusal :=
  match s.inbox with
  | [] => .next s
  | x :: rest => perform x (s.setInbox rest)

/-- `s` with a word of the opcode table presented as the next input. -/
def State.withFetchWord (s : State) (nbits w : Nat) : State := s.present (tableTransaction nbits w)

end Sys2Proof.Machine
end

