-- ==== Sys2Proof/Safety.lean ====
section
/-! DEFINITION. What a well-formed state and a safe run are. -/

namespace Sys2Proof.Machine

/-- An output has the form its rule gives it: a frame is 16,000 bytes (R42, R62). -/
def Output.wf : Output → Bool
  | .response _ => true
  | .frame bytes => decide (bytes.length = 16000)
  | .swapDone => true

/-- The invariant of the machine: both planes in canonical form within 16,000 bytes (R10), every delivered frame of
16,000 bytes (R62), and HORIZONTAL_BLANK never set (R78). -/
structure State.Inv (s : State) : Prop where
  back : s.back.wf = true
  front : s.front.wf = true
  outputs : ∀ o ∈ s.outputs, o.wf = true
  noHorizontalBlank : s.pending &&& flagHorizontalBlank = 0#8

/-- A run of `n` steps is safe when it reaches a state: no fault, no refusal (R76). -/
def SafeRun (n : Nat) (s : State) : Prop := ∃ t : State, Host.Core.run Sys2Proof.core n s = .next t

/-- The instructions of a list run one after the other, each on the state the one before it left (R33). -/
def execAll : List Instr → State → Host.Outcome State Fault Refusal
  | [], s => .next s
  | i :: rest, s =>
    match exec i s with
    | .next t => execAll rest t
    | .fault r => .fault r
    | .refused r => .refused r

end Sys2Proof.Machine
end

