-- ==== Sys2Proof/Certificates/Slice0/Obligations.lean ====
section
/-! DEFINITION. The statements for the provers. They are written from the numbered rules of spec/; `val`, `decode`,
`exec`, `perform` and `step` are the model's, `Memory.read` reads one byte of a plane and `Memory.pix` one pixel. -/

open Sys2Proof Sys2Proof.Machine

/-! ## Encoding -/

/-- Decoding an encoded well-formed instruction gives it back (R38, R40, R44, R66): every operand value the encoding
admits, on every row of the opcode table. -/
def Obligations.DecodeOfEncodeIsIdentity : Prop :=
  ∀ i : Instr, i.wf = true → decode (encode i) = .ok i

/-- Whatever the decoder answers has operands that fit their words (R44). -/
def Obligations.DecodedInstructionIsWellFormed : Prop :=
  ∀ (t : Transaction) (i : Instr), decode t = .ok i → i.wf = true

/-- The command map read backwards: a value decodes to an instruction exactly when that instruction encodes to it (R66),
so that two commands never share a value and no value above 0x0E is a command. -/
def Obligations.CommandValuesAreExactlyTheEncodings : Prop :=
  (∀ (c : Word) (i : Instr), decode (.command c) = .ok i ↔ encode i = .command c) ∧
  (∀ c : Word, 0x0E < c.toNat → decode (.command c) = .error (.unknownCommand c))

/-- A few words, written out from the tables of R40 and R66 and the programs of 95_test_vectors.md. -/
def Obligations.SampleWordsDecode : Prop :=
  decodeWords [0x00000003, 0x64, 0x64, 1, 0, 0, 0] = .ok (.setpix 100 100 1) ∧
  decodeWords [0x00000007, 0xFFFFFFFC, 0xFFFFFFFC, 0xB, 1, 1, 0] = .ok (.fillrect (-4) (-4) 11 1 1) ∧
  decodeWords [0x0000000A, 0x32, 0x32, 0x258, 0xB4, 0x1E, 0x14] = .ok (.copyrgn 50 50 600 180 30 20) ∧
  decodeWords [0x0000000C, 1, 0x1F0, 0, 0, 0, 0] = .ok (.hostwr 1 0x1F0#32) ∧
  decodeWords [0x00000002, 0, 0, 0, 0, 0, 0] = .ok .swap ∧
  decode (.command 0x09#32) = .ok .cmdCopyRegion

/-- R43: header bits [31:4] select nothing, `op` 0xF does nothing, and no request is illegal. -/
def Obligations.ReservedHeaderBitsAreIgnored : Prop :=
  (∀ f g : Frame, f.h.extractLsb' 0 4 = g.h.extractLsb' 0 4 → { f with h := 0#32 } = { g with h := 0#32 } →
    decodeRequest f = decodeRequest g) ∧
  (∀ (f : Frame) (s : State), f.h.extractLsb' 0 4 = 0xF#4 → exec (decodeRequest f) s = .next s) ∧
  (∀ (f : Frame) (s : State), ∃ t, exec (decodeRequest f) s = .next t)

/-- R41: two requests with one header that agree on the operand words its row of R40 names do the same. The list gives
how many words the row of each `op` names. -/
def Obligations.UnnamedOperandWordsAreIgnored : Prop :=
  ∀ (f g : Frame) (s : State), f.h = g.h →
    [f.a0, f.a1, f.a2, f.a3, f.a4, f.a5].take
        ([0, 0, 0, 3, 2, 4, 4, 5, 1, 1, 6, 1, 2, 0, 0, 0].getD (f.h.extractLsb' 0 4).toNat 0) =
      [g.a0, g.a1, g.a2, g.a3, g.a4, g.a5].take
        ([0, 0, 0, 3, 2, 4, 4, 5, 1, 1, 6, 1, 2, 0, 0, 0].getD (f.h.extractLsb' 0 4).toNat 0) →
    perform (.transaction (.request f)) s = perform (.transaction (.request g)) s

/-- R44: an operand word is read as a two's-complement integer. -/
def Obligations.OperandWordsAreTwosComplement : Prop :=
  ∀ a : Word, val a = if a.getLsbD 31 = true then (a.toNat : Int) - 4294967296 else (a.toNat : Int)

/-- R49, for operands that fit their words: PSET and PCLR are SETPIX with 1 and 0, PUBLISH is SWAP, and RECTWH is the
FILLRECT of its corners or no request, as the drawing engine's call is (R68). -/
def Obligations.PseudoOperationsExpand : Prop :=
  ∀ x y w h v : Int, operandFits x = true → operandFits y = true → operandFits w = true → operandFits h = true →
    operandFits v = true →
    assemble "PSET" [x, y] = some [.setpix x y 1] ∧ assemble "PCLR" [x, y] = some [.setpix x y 0] ∧
    assemble "PUBLISH" [] = some [.swap] ∧
    ∃ requests : List Instr, assemble "RECTWH" [x, y, w, h, v] = some requests ∧
      (1 ≤ w ∧ 1 ≤ h → requests = [.fillrect x y (x + w - 1) (y + h - 1) v]) ∧
      (¬ (1 ≤ w ∧ 1 ≤ h) → requests = []) ∧
      ∀ s : State, perform (.draw (.fillRectangle x y w h v)) s = execAll requests s

/-! ## The planes -/

/-- R21: bit `k` of byte `i` is pixel `(8*(i mod 80) + 7 - k, i div 80)`, and that pixel lies in the grid; row `y`
occupies bytes `80*y` to `80*y + 79`; the first and the last pixel. -/
def Obligations.BytesAreRowsOfEightPixels : Prop :=
  (∀ (m : Memory) (i k : Nat), i < 16000 → k < 8 →
    InBounds (8 * ((i % 80 : Nat) : Int) + 7 - k) ((i / 80 : Nat) : Int) ∧
    m.pix (8 * ((i % 80 : Nat) : Int) + 7 - k) ((i / 80 : Nat) : Int) = (m.read i).getLsbD k) ∧
  (∀ x y : Int, InBounds x y → 80 * y ≤ (byteIndex x y : Int) ∧ (byteIndex x y : Int) ≤ 80 * y + 79) ∧
  (∀ m : Memory, m.pix 0 0 = (m.read 0).getLsbD 7 ∧ m.pix 639 199 = (m.read 15999).getLsbD 0)

/-- Reset leaves both planes zero and satisfies the invariant (R19, R86). -/
def Obligations.ResetStateIsZeroAndWellFormed : Prop :=
  State.reset.Inv ∧ ∀ i : Nat, State.reset.back.read i = 0#8 ∧ State.reset.front.read i = 0#8

/-- The invariant of the machine is kept by every step, from every state that has it: the planes stay in canonical form
within 16,000 bytes (R10), every frame put out has 16,000 bytes (R62), HORIZONTAL_BLANK stays clear (R78). -/
def Obligations.StepKeepsInvariant : Prop :=
  ∀ s t : State, s.Inv → step s = .next t → t.Inv

/-! ## The machine -/

/-- A request at the head of the stream is executed as the instruction it decodes to; so is a command, its value first
stored in the command register (the model's choice, log entry 22); whatever follows in the stream stays. -/
def Obligations.StepRunsDecodedInstruction : Prop :=
  (∀ (s : State) (f : Frame) (rest : List Input) (i : Instr), s.inbox = .transaction (.request f) :: rest →
    decode (.request f) = .ok i → i.wf = true → step s = exec i { s with inbox := rest }) ∧
  (∀ (s : State) (c : Word) (rest : List Input) (i : Instr), s.inbox = .transaction (.command c) :: rest →
    decode (.command c) = .ok i → i.wf = true →
    step s = exec i { s with inbox := rest, regs := s.regs.set 8 c })

/-- With no input the block is idle and loses nothing (R84; the empty stream is the model's, log entry 3). -/
def Obligations.IdleStepChangesNothing : Prop :=
  ∀ s : State, s.inbox = [] → step s = .next s

/-- R76: no request, command or other input ever stops the machine, from any state, for any number of steps. -/
def Obligations.EveryRunCompletes : Prop :=
  ∀ (n : Nat) (s : State), SafeRun n s

/-- R12, the plane columns of its table, over every instruction: `Front` changes only at SWAP and RESET (the swap
command issues SWAP), and `Back` never at the operations and commands listed. -/
def Obligations.PlaneWritersAreOnlyTheListedOnes : Prop :=
  ∀ (i : Instr) (s t : State), exec i s = .next t →
    (t.front ≠ s.front → i = .swap ∨ i = .reset ∨ i = .cmdSwap) ∧
    ((∃ x y, i = .getpix x y) ∨ (∃ k, i = .hostrd k) ∨
      i ∈ [Instr.snapshot, .nop, .reservedF, .swap, .cmdNop, .cmdSwap, .cmdTextWriteChar, .cmdTextSetCursor,
        .cmdTextClear, .cmdTextScrollUp, .cmdTextScrollDown] → t.back = s.back)

/-- The same over a whole step (R13): nothing but a SWAP, a RESET, the swap command or a reset changes `Front`, which the
host window and the snapshot read. -/
def Obligations.FrontChangesOnlyAtSwapOrReset : Prop :=
  ∀ (s t : State) (x : Input) (rest : List Input), s.inbox = x :: rest → step s = .next t → t.front ≠ s.front →
    (∃ f : Frame, x = .transaction (.request f) ∧ (decodeRequest f = .swap ∨ decodeRequest f = .reset)) ∨
    x = .transaction (.command 0x02#32) ∨ x = .regWrite 8 0x02#32 ∨ x = .resetInput ∨ x = .controllerReset

/-- R93 and R42: what was put out is never changed or taken back; a step only adds to it. -/
def Obligations.DeliveredOutputsNeverChange : Prop :=
  ∀ s t : State, step s = .next t → ∃ added : List Output, t.outputs = s.outputs ++ added

/-! ## Pixel operations -/

/-- R50. The byte of the pixel is ORed or cleared by the mask, every other byte is kept, and nothing else changes. -/
def Obligations.SetpixWritesOneClippedPixel : Prop :=
  (∀ f : Frame, f.h.extractLsb' 0 4 = 0x3#4 → decodeRequest f = .setpix (val f.a0) (val f.a1) (val f.a2)) ∧
  ∀ (s : State) (x y v : Int), s.back.wf = true →
    ∃ m : Memory, exec (.setpix x y v) s = .next { s with back := m } ∧
      (InBounds x y → ∀ i : Nat, m.read i =
        if (i : Int) = 80 * y + x / 8 then
          (if v ≠ 0 then s.back.read i ||| (1#8 <<< (7 - x % 8).toNat)
           else s.back.read i &&& ~~~(1#8 <<< (7 - x % 8).toNat))
        else s.back.read i) ∧
      (¬ InBounds x y → m = s.back)

/-- R51. The response is the pixel of the back plane, 0 outside the grid, and no plane changes. -/
def Obligations.GetpixReturnsBackPixel : Prop :=
  (∀ f : Frame, f.h.extractLsb' 0 4 = 0x4#4 → decodeRequest f = .getpix (val f.a0) (val f.a1)) ∧
  ∀ (s : State) (x y : Int), exec (.getpix x y) s = .next { s with outputs := s.outputs ++ [.response
    (if 0 ≤ x ∧ x < 640 ∧ 0 ≤ y ∧ y < 200 then
      BitVec.setWidth 32 (BitVec.ofBool ((s.back.read (80 * y + x / 8).toNat).getLsbD (7 - x % 8).toNat))
     else 0#32)] }

/-- DOC's testable property (R50, R51): a pixel set is read back set, a pixel cleared is read back clear, and every
other pixel reads as before. -/
def Obligations.GetpixSeesSetpix : Prop :=
  ∀ (s : State) (x y v : Int), s.back.wf = true → InBounds x y →
    ∃ t : State, exec (.setpix x y v) s = .next t ∧
      exec (.getpix x y) t = .next { t with outputs := t.outputs ++ [.response (if v = 0 then 0#32 else 1#32)] } ∧
      ∀ x' y' : Int, ¬ (x' = x ∧ y' = y) → ∀ r : Word,
        exec (.getpix x' y') s = .next { s with outputs := s.outputs ++ [.response r] } →
        exec (.getpix x' y') t = .next { t with outputs := t.outputs ++ [.response r] }

/-! ## Span and fill operations -/

/-- R52. The pixels of the closed run take the value, every other pixel and every byte without such a pixel is kept, and
nothing else changes. -/
def Obligations.HlineSetsClippedRun : Prop :=
  (∀ f : Frame, f.h.extractLsb' 0 4 = 0x5#4 →
    decodeRequest f = .hline (val f.a0) (val f.a1) (val f.a2) (val f.a3)) ∧
  ∀ (s : State) (x1 x2 y v : Int), s.back.wf = true →
    ∃ m : Memory, exec (.hline x1 x2 y v) s = .next { s with back := m } ∧
      (∀ a b : Int, InBounds a b → m.pix a b =
        if b = y ∧ min x1 x2 ≤ a ∧ a ≤ max x1 x2 then decide (v ≠ 0) else s.back.pix a b) ∧
      (∀ i : Nat, (∀ a : Int, InBounds a y → min x1 x2 ≤ a → a ≤ max x1 x2 → (i : Int) ≠ 80 * y + a / 8) →
        m.read i = s.back.read i)

/-- The last sentence but one of R52's corner cases: HLINE is SETPIX for every integer of the unclipped run, in any
order (and with any repeats). -/
def Obligations.HlineIsSetpixInAnyOrder : Prop :=
  ∀ (s : State) (x1 x2 y v : Int) (xs : List Int), s.back.wf = true →
    (∀ a : Int, a ∈ xs ↔ min x1 x2 ≤ a ∧ a ≤ max x1 x2) →
    execAll (xs.map fun a => .setpix a y v) s = exec (.hline x1 x2 y v) s

/-- R53. -/
def Obligations.VlineSetsClippedRun : Prop :=
  (∀ f : Frame, f.h.extractLsb' 0 4 = 0x6#4 →
    decodeRequest f = .vline (val f.a0) (val f.a1) (val f.a2) (val f.a3)) ∧
  ∀ (s : State) (x y1 y2 v : Int), s.back.wf = true →
    ∃ m : Memory, exec (.vline x y1 y2 v) s = .next { s with back := m } ∧
      (∀ a b : Int, InBounds a b → m.pix a b =
        if a = x ∧ min y1 y2 ≤ b ∧ b ≤ max y1 y2 then decide (v ≠ 0) else s.back.pix a b) ∧
      (∀ i : Nat, (∀ b : Int, InBounds x b → min y1 y2 ≤ b → b ≤ max y1 y2 → (i : Int) ≠ 80 * b + x / 8) →
        m.read i = s.back.read i)

/-- R54. -/
def Obligations.FillrectSetsClippedRectangle : Prop :=
  (∀ f : Frame, f.h.extractLsb' 0 4 = 0x7#4 →
    decodeRequest f = .fillrect (val f.a0) (val f.a1) (val f.a2) (val f.a3) (val f.a4)) ∧
  ∀ (s : State) (x1 y1 x2 y2 v : Int), s.back.wf = true →
    ∃ m : Memory, exec (.fillrect x1 y1 x2 y2 v) s = .next { s with back := m } ∧
      (∀ a b : Int, InBounds a b → m.pix a b =
        if min x1 x2 ≤ a ∧ a ≤ max x1 x2 ∧ min y1 y2 ≤ b ∧ b ≤ max y1 y2 then decide (v ≠ 0) else s.back.pix a b) ∧
      (∀ i : Nat, (∀ a b : Int, InBounds a b → min x1 x2 ≤ a → a ≤ max x1 x2 → min y1 y2 ≤ b → b ≤ max y1 y2 →
          (i : Int) ≠ 80 * b + a / 8) →
        m.read i = s.back.read i)

/-- FILLRECT is one HLINE for every row between its corners, in any order (R52, R54). -/
def Obligations.FillrectIsHlinesInAnyOrder : Prop :=
  ∀ (s : State) (x1 y1 x2 y2 v : Int) (ys : List Int), s.back.wf = true →
    (∀ b : Int, b ∈ ys ↔ min y1 y2 ≤ b ∧ b ≤ max y1 y2) →
    execAll (ys.map fun b => .hline x1 x2 b v) s = exec (.fillrect x1 y1 x2 y2 v) s

/-- R55: the back plane reads zero everywhere, and nothing else changes. -/
def Obligations.ClearZeroesBackOnly : Prop :=
  (∀ f : Frame, f.h.extractLsb' 0 4 = 0x1#4 → decodeRequest f = .clear) ∧
  ∀ s : State, ∃ m : Memory, exec .clear s = .next { s with back := m } ∧ ∀ i : Nat, m.read i = 0#8

/-- R29, the idempotent writes: repeating one of them leaves the planes as doing it once. -/
def Obligations.WritesAreIdempotent : Prop :=
  ∀ (i : Instr) (s : State), s.Inv →
    ((∃ x y v, i = .setpix x y v) ∨ (∃ x1 x2 y v, i = .hline x1 x2 y v) ∨ (∃ x y1 y2 v, i = .vline x y1 y2 v) ∨
      (∃ x1 y1 x2 y2 v, i = .fillrect x1 y1 x2 y2 v) ∨ i = .clear ∨ (∃ k w, i = .hostwr k w) ∨ i = .swap) →
    ∃ t u : State, exec i s = .next t ∧ exec i t = .next u ∧ u.back = t.back ∧ u.front = t.front

/-! ## Scroll and copy operations -/

/-- R56, by bytes as its pseudocode has it and by rows as its corner cases do. -/
def Obligations.ScrollupMovesRowsUp : Prop :=
  (∀ f : Frame, f.h.extractLsb' 0 4 = 0x8#4 → decodeRequest f = .scrollup (val f.a0)) ∧
  ∀ (s : State) (n : Int), ∃ m : Memory, exec (.scrollup n) s = .next { s with back := m } ∧
    (1 ≤ n → ∀ i : Nat, i < 16000 → m.read i =
      if (i : Int) + 80 * min n 200 ≤ 15999 then s.back.read (i + (80 * min n 200).toNat) else 0#8) ∧
    (1 ≤ n → ∀ x y : Int, InBounds x y → m.pix x y = if y + n < 200 then s.back.pix x (y + n) else false) ∧
    (n ≤ 0 → m = s.back)

/-- R57. -/
def Obligations.ScrolldnMovesRowsDown : Prop :=
  (∀ f : Frame, f.h.extractLsb' 0 4 = 0x9#4 → decodeRequest f = .scrolldn (val f.a0)) ∧
  ∀ (s : State) (n : Int), ∃ m : Memory, exec (.scrolldn n) s = .next { s with back := m } ∧
    (1 ≤ n → ∀ i : Nat, i < 16000 → m.read i =
      if 0 ≤ (i : Int) - 80 * min n 200 then s.back.read (i - (80 * min n 200).toNat) else 0#8) ∧
    (1 ≤ n → ∀ x y : Int, InBounds x y → m.pix x y = if 0 ≤ y - n then s.back.pix x (y - n) else false) ∧
    (n ≤ 0 → m = s.back)

/-- The two nested loops of R58 as its pseudocode has them, over the whole w × h rectangle, skipping the iterations
whose source or destination is out of bounds. -/
def Sys2Proof.Machine.copyLoops (m : Memory) (sx sy dx dy w h : Int) : Memory :=
  (intRange 0 (h - 1)).foldl (fun rows j =>
    (intRange 0 (w - 1)).foldl (fun acc i =>
      if InBounds (sx + i) (sy + j) ∧ InBounds (dx + i) (dy + j) then
        acc.setPix (dx + i) (dy + j) (acc.pix (sx + i) (sy + j))
      else acc) rows) m

/-- R58: COPYRGN does what the rule's loops do, each iteration reading what the earlier ones left, and nothing
else. Log entry 9 names the alternative of 93 I1 (copyPolicy buffered) that is not taken. -/
def Obligations.CopyrgnIsTheInPlaceLoops : Prop :=
  (∀ f : Frame, f.h.extractLsb' 0 4 = 0xA#4 →
    decodeRequest f = .copyrgn (val f.a0) (val f.a1) (val f.a2) (val f.a3) (val f.a4) (val f.a5)) ∧
  ∀ (s : State) (sx sy dx dy w h : Int),
    exec (.copyrgn sx sy dx dy w h) s = .next { s with back := copyLoops s.back sx sy dx dy w h }

/-- What follows from R58 for regions that do not overlap: each in-grid destination pixel whose source lies in the grid
takes the source's old value, every other pixel and every byte without such a destination is kept. -/
def Obligations.CopyrgnOfDisjointRegionsMovesPixels : Prop :=
  ∀ (s : State) (sx sy dx dy w h : Int), s.back.wf = true →
    (sx + w ≤ dx ∨ dx + w ≤ sx ∨ sy + h ≤ dy ∨ dy + h ≤ sy) →
    ∃ m : Memory, exec (.copyrgn sx sy dx dy w h) s = .next { s with back := m } ∧
      (∀ a b : Int, InBounds a b → m.pix a b =
        if (dx ≤ a ∧ a < dx + w ∧ dy ≤ b ∧ b < dy + h) ∧ InBounds (sx + (a - dx)) (sy + (b - dy)) then
          s.back.pix (sx + (a - dx)) (sy + (b - dy))
        else s.back.pix a b) ∧
      (∀ i : Nat, (∀ a b : Int, InBounds a b → dx ≤ a → a < dx + w → dy ≤ b → b < dy + h →
          (i : Int) ≠ 80 * b + a / 8) →
        m.read i = s.back.read i)

/-- R58: a copy of a region onto itself changes nothing, and neither does one with w or h not positive. -/
def Obligations.CopyrgnOntoItselfOrEmptyChangesNothing : Prop :=
  ∀ (s : State) (sx sy dx dy w h : Int), s.back.wf = true →
    (sx = dx ∧ sy = dy) ∨ w ≤ 0 ∨ h ≤ 0 → exec (.copyrgn sx sy dx dy w h) s = .next s

/-! ## Host byte port -/

/-- R59. -/
def Obligations.HostrdReturnsFrontByte : Prop :=
  (∀ f : Frame, f.h.extractLsb' 0 4 = 0xB#4 → decodeRequest f = .hostrd (val f.a0)) ∧
  ∀ (s : State) (i : Int), exec (.hostrd i) s = .next { s with outputs := s.outputs ++ [.response
    (if 0 ≤ i ∧ i ≤ 15999 then BitVec.setWidth 32 (s.front.read i.toNat) else 0#32)] }

/-- R60. -/
def Obligations.HostwrReplacesBackByte : Prop :=
  (∀ f : Frame, f.h.extractLsb' 0 4 = 0xC#4 → decodeRequest f = .hostwr (val f.a0) f.a1) ∧
  ∀ (s : State) (i : Int) (w : Word), s.back.wf = true →
    ∃ m : Memory, exec (.hostwr i w) s = .next { s with back := m } ∧
      (0 ≤ i ∧ i ≤ 15999 → ∀ j : Nat, m.read j = if (j : Int) = i then w.extractLsb' 0 8 else s.back.read j) ∧
      (¬ (0 ≤ i ∧ i ≤ 15999) → m = s.back)

/-- R89: a window read after a window write returns the old front byte until a SWAP comes between, and then the byte
written; GETPIX-side readers see `Back` at once (R60). -/
def Obligations.WindowReadAfterWriteNeedsSwap : Prop :=
  ∀ (s : State) (i : Int) (w : Word), s.back.wf = true → 0 ≤ i ∧ i ≤ 15999 →
    ∃ t u : State, exec (.hostwr i w) s = .next t ∧ exec .swap t = .next u ∧
      exec (.hostrd i) t =
        .next { t with outputs := t.outputs ++ [.response (BitVec.setWidth 32 (s.front.read i.toNat))] } ∧
      exec (.hostrd i) u =
        .next { u with outputs := u.outputs ++ [.response (BitVec.setWidth 32 (w.extractLsb' 0 8))] }

/-! ## Buffer and control operations -/

/-- R61: `Front` reads as `Back`, `Back` is kept, swap_done is put out. That the controller raises BUFFER_SWAP on it is
R67's decision D14, in the same step by log entry 19. -/
def Obligations.SwapCopiesBackToFront : Prop :=
  (∀ f : Frame, f.h.extractLsb' 0 4 = 0x2#4 → decodeRequest f = .swap) ∧
  ∀ s : State, ∃ m : Memory,
    exec .swap s = .next { s with front := m, outputs := s.outputs ++ [.swapDone], pending := s.pending ||| 0x08#8 } ∧
    ∀ i : Nat, m.read i = s.back.read i

/-- R62, its pseudocode: exactly the 16,000 bytes of `Front`, in order, and no plane changes. That no later operation
changes them is DeliveredOutputsNeverChange. -/
def Obligations.SnapshotDeliversFrontBytes : Prop :=
  (∀ f : Frame, f.h.extractLsb' 0 4 = 0xD#4 → decodeRequest f = .snapshot) ∧
  ∀ s : State, ∃ bytes : List Byte,
    exec .snapshot s = .next { s with outputs := s.outputs ++ [.frame bytes] } ∧
    bytes.length = 16000 ∧ ∀ i : Nat, i < 16000 → bytes[i]? = some (s.front.read i)

/-- R63, by request and by the reset input (R85): both planes read zero, and nothing else changes. -/
def Obligations.ResetClearsBothPlanes : Prop :=
  (∀ f : Frame, f.h.extractLsb' 0 4 = 0xE#4 → decodeRequest f = .reset) ∧
  ∀ s : State, ∃ m n : Memory, exec .reset s = .next { s with back := m, front := n } ∧
    perform .resetInput s = .next { s with back := m, front := n } ∧
    ∀ i : Nat, m.read i = 0#8 ∧ n.read i = 0#8

/-- R64 and R65: NOP and the reserved `op` change nothing and answer nothing. -/
def Obligations.NopAndReservedChangeNothing : Prop :=
  (∀ f : Frame, f.h.extractLsb' 0 4 = 0x0#4 → decodeRequest f = .nop) ∧
  (∀ f : Frame, f.h.extractLsb' 0 4 = 0xF#4 → decodeRequest f = .reservedF) ∧
  ∀ s : State, exec .nop s = .next s ∧ exec .reservedF s = .next s

/-! ## The controller's commands -/

/-- R66: no-op and the five text commands issue no request to this block; COMMAND_COMPLETE is raised. That a text
command does nothing else is the model's choice: the text plane it changes is out of scope (log entry 13). -/
def Obligations.QuietCommandsOnlyComplete : Prop :=
  ∀ (i : Instr) (s : State),
    i ∈ [Instr.cmdNop, .cmdTextWriteChar, .cmdTextSetCursor, .cmdTextClear, .cmdTextScrollUp, .cmdTextScrollDown] →
    exec i s = .next { s with pending := s.pending ||| 0x04#8 }

/-- R66: clear, swap, set-pixel and copy-region issue their one request, with p0 to p3 at registers 0x24 to 0x30 and
copy-region's w and h in the registers COPY_P45_SOURCE names (D13), then complete. The model's choices: which registers
COPY_P45_SOURCE may name (log entry 8), and that registers are read as signed (log entry 23). -/
def Obligations.DirectCommandsIssueTheirRequest : Prop :=
  ∀ s : State,
    (∃ t, exec .clear s = .next t ∧ exec .cmdClear s = .next { t with pending := t.pending ||| 0x04#8 }) ∧
    (∃ t, exec .swap s = .next t ∧ exec .cmdSwap s = .next { t with pending := t.pending ||| 0x04#8 }) ∧
    (∃ t, exec (.setpix (s.regs.get 9).toInt (s.regs.get 10).toInt (s.regs.get 11).toInt) s = .next t ∧
      exec .cmdSetPixel s = .next { t with pending := t.pending ||| 0x04#8 }) ∧
    (∃ t, exec (.copyrgn (s.regs.get 9).toInt (s.regs.get 10).toInt (s.regs.get 11).toInt (s.regs.get 12).toInt
        (s.regs.get (sizeRegister Config.copyP45Source.1)).toInt
        (s.regs.get (sizeRegister Config.copyP45Source.2)).toInt) s = .next t ∧
      exec .cmdCopyRegion s = .next { t with pending := t.pending ||| 0x04#8 })

/-- R68, at the command and at the drawing engine's call with any value. Corners are exact integers (R7, R44; the
model's reading past 32 bits, log entry 12), here and in the next two statements; the command's registers are read as
signed (the model's reading, log entry 23). -/
def Obligations.RectFillConvertsToFillrect : Prop :=
  (∀ s : State, ∃ t : State,
    execAll (if 1 ≤ (s.regs.get 11).toInt ∧ 1 ≤ (s.regs.get 12).toInt then
      [.fillrect (s.regs.get 9).toInt (s.regs.get 10).toInt
        ((s.regs.get 9).toInt + (s.regs.get 11).toInt - 1) ((s.regs.get 10).toInt + (s.regs.get 12).toInt - 1) 1]
      else []) s = .next t ∧
    exec .cmdRectFill s = .next { t with pending := t.pending ||| 0x04#8 }) ∧
  (∀ (s : State) (x y w h v : Int),
    perform (.draw (.fillRectangle x y w h v)) s =
      execAll (if 1 ≤ w ∧ 1 ≤ h then [.fillrect x y (x + w - 1) (y + h - 1) v] else []) s)

/-- R69: the outline is two HLINEs and, above height 2, two VLINEs; nothing for an empty rectangle. The command draws
(p0, p1, p2, p3) with value 1 (R66, D21). The model's readings: exact corners (log entry 12), signed registers (log
entry 23). -/
def Obligations.RectOutlineIsItsSegments : Prop :=
  (∀ (s : State) (x y w h v : Int),
    perform (.draw (.drawRectangle x y w h v)) s =
      execAll (if 1 ≤ w ∧ 1 ≤ h then
        [.hline x (x + w - 1) y v, .hline x (x + w - 1) (y + h - 1) v] ++
          (if 2 < h then [.vline x (y + 1) (y + h - 1 - 1) v, .vline (x + w - 1) (y + 1) (y + h - 1 - 1) v] else [])
        else []) s) ∧
  (∀ s : State, ∃ t : State,
    perform (.draw (.drawRectangle (s.regs.get 9).toInt (s.regs.get 10).toInt (s.regs.get 11).toInt
      (s.regs.get 12).toInt 1)) s = .next t ∧
    exec .cmdRectOutline s = .next { t with pending := t.pending ||| 0x04#8 })

/-- What R69 comes to: exactly the in-grid perimeter pixels take the value, no interior pixel does (90 C2). -/
def Obligations.RectOutlineDrawsThePerimeter : Prop :=
  ∀ (s : State) (x y w h v : Int), s.back.wf = true → 1 ≤ w → 1 ≤ h →
    ∃ m : Memory, perform (.draw (.drawRectangle x y w h v)) s = .next { s with back := m } ∧
      ∀ a b : Int, InBounds a b → m.pix a b =
        if (x ≤ a ∧ a ≤ x + w - 1 ∧ y ≤ b ∧ b ≤ y + h - 1) ∧
            (a = x ∨ a = x + w - 1 ∨ b = y ∨ b = y + h - 1) then decide (v ≠ 0)
        else s.back.pix a b

/-- R70: the pixels a rasterizer or a bitmap blit emits reach the block as SETPIX requests in their order, whatever they
are. The line and circle commands do so with what their rasterizer emits for p0 to p3 (a free value, log entry 11), and
complete. -/
def Obligations.RasterPixelsAreSetpixRequests : Prop :=
  (∀ (s : State) (ps : List PixelRequest),
    perform (.draw (.plot ps)) s = execAll (ps.map fun p => .setpix (val p.x) (val p.y) (val p.v)) s) ∧
  (∀ (s : State) (k : RasterCommand), ∃ t : State,
    execAll ((Config.rasterPixels k s.freeCount (s.regs.get 9) (s.regs.get 10) (s.regs.get 11) (s.regs.get 12)).map
      fun p => .setpix (val p.x) (val p.y) (val p.v)) s = .next t ∧
    exec (match k with
      | .line => .cmdLine
      | .circleOutline => .cmdCircleOutline
      | .circleFill => .cmdCircleFill) s =
      .next { t with pending := t.pending ||| 0x04#8, freeCount := s.freeCount + 1 })

/-- R67: every command, unknown ones and no-op included, raises COMMAND_COMPLETE, and every SWAP raises BUFFER_SWAP;
nothing else touches the flags. -/
def Obligations.CompletionAndSwapFlags : Prop :=
  (∀ (c : Word) (s : State), ∃ t : State, perform (.transaction (.command c)) s = .next t ∧
    t.pending = s.pending ||| 0x04#8 ||| (if c = 0x02#32 then 0x08#8 else 0x00#8)) ∧
  (∀ (f : Frame) (s : State), ∃ t : State, perform (.transaction (.request f)) s = .next t ∧
    t.pending = if f.h.extractLsb' 0 4 = 0x2#4 then s.pending ||| 0x08#8 else s.pending)

/-- R66: a command value above 0x0E is ignored; COMMAND_COMPLETE is raised, and the command register holds the value
(the model's choice, log entry 22). -/
def Obligations.UnknownCommandOnlyCompletes : Prop :=
  ∀ (c : Word) (s : State), 0x0E < c.toNat →
    perform (.transaction (.command c)) s =
      .next { s with regs := s.regs.set 8 c, pending := s.pending ||| 0x04#8 }

/-- Controller register writes, as the model takes them (R66; log entries 17 and 18): a register other than the command
register holds the value and nothing else changes; the command register is a command; the pending flags are cleared by
writing ones (R78). -/
def Obligations.RegisterWritesHoldOrCommand : Prop :=
  (∀ (r : Fin 18) (w : Word) (s : State), r ≠ 8 →
    ∃ t : State, perform (.regWrite r w) s = .next { s with regs := t.regs } ∧ t.regs.get r = w ∧
      ∀ q : Fin 18, q ≠ r → t.regs.get q = s.regs.get q) ∧
  (∀ (w : Word) (s : State), perform (.regWrite 8 w) s = perform (.transaction (.command w)) s) ∧
  (∀ (w : Word) (s : State), ∃ p : Byte, perform (.statusWrite w) s = .next { s with pending := p } ∧
    ∀ k : Nat, k < 8 → p.getLsbD k = (s.pending.getLsbD k && !w.getLsbD k))

/-! ## The other clients -/

/-- R71: each of the 64 pixels of a rendered character that lies in the grid takes its value, whatever BOLD and BLINK
are; every other pixel is kept. REVERSE before UNDERLINE is log entry 15. -/
def Obligations.RenderCharacterDrawsGlyph : Prop :=
  ∀ (s : State) (x y : Int) (cell : TextCell), s.back.wf = true →
    ∃ m : Memory, perform (.draw (.renderCharacter x y cell)) s = .next { s with back := m } ∧
      (∀ r c : Fin 8, InBounds (x + c.val) (y + r.val) → m.pix (x + c.val) (y + r.val) =
        decide ((if cell.attrs.underline = true ∧ r = 7 then (if cell.attrs.reverse then cell.bg else cell.fg)
          else if (cell.glyph.get r).getLsbD (7 - c.val) = true then
            (if cell.attrs.reverse then cell.bg else cell.fg)
          else (if cell.attrs.reverse then cell.fg else cell.bg)) ≠ 0)) ∧
      (∀ a b : Int, InBounds a b → ¬ (x ≤ a ∧ a < x + 8 ∧ y ≤ b ∧ b < y + 8) → m.pix a b = s.back.pix a b)

/-- R72: a text-mode tick paints cell `k` at pixel `(8*(k mod 80), 8*(k div 80))`, the cells row by row, inverts the
cursor's cell, and delivers `Front` to an attached sink; it issues no SWAP. The model's choices: the screen arrives as
data (log entry 14), the overlay's GETPIX responses are not put out (log entry 21), and VERTICAL_BLANK (bit 0 of the
flags, which R78 gives to the tick) stays free (log entry 26). -/
def Obligations.TextTickPaintsEveryCell : Prop :=
  ∀ (s : State) (screen : TextScreen) (sink : Bool), s.back.wf = true →
    ∃ (m : Memory) (flags : Byte), perform (.tick (some screen) sink) s =
        .next { s with back := m, outputs := s.outputs ++ (if sink then [.frame s.front.bytes] else []),
                       pending := flags, freeCount := s.freeCount + 1 } ∧
      (∀ j : Nat, j ≠ 0 → flags.getLsbD j = s.pending.getLsbD j) ∧
      ∀ (k : Fin 2000) (r c : Fin 8),
        m.pix (8 * ((k.val % 80 : Nat) : Int) + c.val) (8 * ((k.val / 80 : Nat) : Int) + r.val) =
          Bool.xor (decide (characterValue (screen.cells.get k) r c ≠ 0))
            (decide (∃ p : Fin 80 × Fin 25, screen.cursor = some p ∧ p.1.val = k.val % 80 ∧ p.2.val = k.val / 80))

/-- R92: in text mode a tick loses whatever graphics `Back` held: two machines that differ only there agree after
it. -/
def Obligations.TextTickForgetsBackPlane : Prop :=
  ∀ (s : State) (m n : Memory) (screen : TextScreen) (sink : Bool), m.wf = true → n.wf = true →
    perform (.tick (some screen) sink) { s with back := m } = perform (.tick (some screen) sink) { s with back := n }

/-- R72 in graphics mode: the tick "performs no extra work" but for the snapshot of an attached sink, and the flag R78
gives to it, VERTICAL_BLANK (bit 0), which stays free (log entry 26). -/
def Obligations.GraphicsTickOnlySnapshots : Prop :=
  ∀ s : State, ∃ (flags : Byte) (t : State), t = { s with pending := flags, freeCount := s.freeCount + 1 } ∧
    perform (.tick none false) s = .next t ∧ perform (.tick none true) s = exec .snapshot t ∧
    ∀ j : Nat, j ≠ 0 → flags.getLsbD j = s.pending.getLsbD j

/-- R73 with R31: a host access at FB_WINDOW_BASE + i, for a window offset i, is HOSTRD i or HOSTWR i, w; an address
outside the window does nothing to this block (log entry 7). -/
def Obligations.WindowAccessIsHostOperation : Prop :=
  (∀ (s : State) (addr w : Word) (i : Nat), i < 16000 → addr.toNat = Config.fbWindowBase.toNat + i →
    perform (.busRead addr) s = exec (.hostrd (i : Int)) s ∧
    perform (.busWrite addr w) s = exec (.hostwr (i : Int) w) s) ∧
  (∀ (s : State) (addr w : Word),
    (∀ i : Nat, i < 16000 → addr.toNat ≠ Config.fbWindowBase.toNat + i) →
    perform (.busRead addr) s = .next s ∧ perform (.busWrite addr w) s = .next s)

/-- R74 and R75: the controller's reset clears both planes as RESET does (the registers and flags it sets are the model's
choice, log entry 16), and the sink's messages change nothing. -/
def Obligations.ControllerResetAndSinkMessages : Prop :=
  (∀ s : State, ∃ t u : State, exec .reset s = .next t ∧ perform .controllerReset s = .next u ∧
    u = { t with regs := u.regs, pending := u.pending } ∧ u.back = t.back ∧ u.front = t.front) ∧
  (∀ (s : State) (msg : SinkMessage), perform (.sinkMessage msg) s = .next s)

/-- R17 and R18, over every input: frame-buffer start (0x08) and end (0x0C), palette (0x34, 0x38) and border (0x3C)
reach nothing. Two machines that differ in one of them go on alike in everything but the register file. -/
def Obligations.UnusedRegistersReachNothing : Prop :=
  ∀ (x : Input) (s : State) (r : Fin 18) (w : Word), r ∈ ([2, 3, 13, 14, 15] : List (Fin 18)) →
    ∃ t u : State, perform x s = .next t ∧ perform x { s with regs := s.regs.set r w } = .next u ∧
      u = { t with regs := u.regs }
end

