-- ==== Sys2Proof/Laws/Memory.lean ====
section
/-! SUPPORT. A plane as bytes: read after write, the canonical form kept by every byte operation, and planes that read
alike are equal. -/

namespace Sys2Proof.Machine

@[simp] theorem Memory.read_nil (i : Nat) : Memory.read [] i = 0#8 := rfl

@[simp] theorem Memory.wf_nil : Memory.wf [] = true := rfl

theorem Memory.read_cons (a : Nat) (b : Byte) (rest : Memory) (i : Nat) :
    Memory.read ((a, b) :: rest) i = if a = i then b else Memory.read rest i := rfl

theorem Memory.wfFrom_cons {lo a : Nat} {b : Byte} {rest : Memory} :
    Memory.wfFrom lo ((a, b) :: rest) = true ↔
      lo ≤ a ∧ a < 16000 ∧ b ≠ 0#8 ∧ Memory.wfFrom (a + 1) rest = true := by
  simp only [Memory.wfFrom, Bool.and_eq_true, decide_eq_true_eq, and_assoc, ne_eq]

/-- The canonical form from a higher address is one from a lower address. -/
theorem Memory.wfFrom_lower {lo hi : Nat} {m : Memory} (h : Memory.wfFrom hi m = true) (le : lo ≤ hi) :
    Memory.wfFrom lo m = true := by
  cases m with
  | nil => rfl
  | cons c rest =>
    obtain ⟨a, b⟩ := c
    rw [Memory.wfFrom_cons] at h ⊢
    exact ⟨le.trans h.1, h.2⟩

/-- A canonical list reads as unlisted below its first address. -/
theorem Memory.read_below {lo : Nat} {m : Memory} (h : Memory.wfFrom lo m = true) {i : Nat} (lt : i < lo) :
    m.read i = 0#8 := by
  induction m generalizing lo with
  | nil => rfl
  | cons c rest ih =>
    obtain ⟨a, b⟩ := c
    rw [Memory.wfFrom_cons] at h
    rw [Memory.read_cons, if_neg (by omega)]
    exact ih h.2.2.2 (by omega)

/-- A canonical list reads as unlisted from 16,000 on. -/
theorem Memory.read_beyond {lo : Nat} {m : Memory} (h : Memory.wfFrom lo m = true) {i : Nat} (le : 16000 ≤ i) :
    m.read i = 0#8 := by
  induction m generalizing lo with
  | nil => rfl
  | cons c rest ih =>
    obtain ⟨a, b⟩ := c
    rw [Memory.wfFrom_cons] at h
    rw [Memory.read_cons, if_neg (by omega)]
    exact ih h.2.2.2

theorem Memory.read_write_from {lo : Nat} {m : Memory} (h : Memory.wfFrom lo m = true) (i j : Nat) (b : Byte) :
    (m.write i b).read j = if j = i then b else m.read j := by
  induction m generalizing lo with
  | nil =>
    by_cases hb : b = 0#8
    · simp [Memory.write, Memory.unlisted, hb]
    · simp only [Memory.write, Memory.unlisted, hb, if_false, Memory.read_cons, Memory.read_nil, eq_comm (a := i)]
  | cons c rest ih =>
    obtain ⟨a, v⟩ := c
    rw [Memory.wfFrom_cons] at h
    obtain ⟨-, -, -, hrest⟩ := h
    rw [Memory.write]
    by_cases lt : i < a
    · rw [if_pos lt]
      by_cases hb : b = Memory.unlisted
      · rw [if_pos hb]
        by_cases e : j = i
        · subst e
          rw [if_pos rfl, hb, Memory.read_cons, if_neg (by omega), Memory.read_below hrest (by omega)]
        · rw [if_neg e]
      · rw [if_neg hb, Memory.read_cons]
        simp only [eq_comm (a := i)]
    · rw [if_neg lt]
      by_cases ea : i = a
      · subst ea
        rw [if_pos rfl]
        by_cases e : j = i
        · subst e
          by_cases hb : b = Memory.unlisted
          · rw [if_pos hb, if_pos rfl, hb, Memory.read_below hrest (by omega)]
          · rw [if_neg hb, if_pos rfl, Memory.read_cons, if_pos rfl]
        · by_cases hb : b = Memory.unlisted
          · rw [if_pos hb, if_neg e, Memory.read_cons, if_neg (by omega)]
          · rw [if_neg hb, if_neg e, Memory.read_cons, Memory.read_cons, if_neg (by omega), if_neg (by omega)]
      · rw [if_neg ea, Memory.read_cons, Memory.read_cons, ih hrest]
        by_cases e : a = j
        · rw [if_pos e, if_pos e, if_neg (by omega)]
        · rw [if_neg e, if_neg e]

/-- Everything a byte write can do to a canonical plane: that byte, and no other (R8). -/
theorem Memory.read_write {m : Memory} (h : m.wf = true) (i j : Nat) (b : Byte) :
    (m.write i b).read j = if j = i then b else m.read j :=
  Memory.read_write_from h i j b

theorem Memory.write_wfFrom {lo : Nat} {m : Memory} (h : Memory.wfFrom lo m = true) {i : Nat} (b : Byte)
    (hi : i < 16000) (hlo : lo ≤ i) : Memory.wfFrom lo (m.write i b) = true := by
  induction m generalizing lo with
  | nil =>
    simp only [Memory.write, Memory.unlisted]
    split_ifs with hb
    · rfl
    · exact Memory.wfFrom_cons.2 ⟨hlo, hi, hb, rfl⟩
  | cons c rest ih =>
    obtain ⟨a, v⟩ := c
    have h' := Memory.wfFrom_cons.1 h
    obtain ⟨hla, ha, hv, hrest⟩ := h'
    simp only [Memory.write, Memory.unlisted]
    split_ifs with lt hb eq hb
    · exact h
    · exact Memory.wfFrom_cons.2 ⟨hlo, hi, hb, Memory.wfFrom_cons.2 ⟨lt, ha, hv, hrest⟩⟩
    · exact Memory.wfFrom_lower hrest (by omega)
    · subst eq
      exact Memory.wfFrom_cons.2 ⟨hla, ha, hb, hrest⟩
    · exact Memory.wfFrom_cons.2 ⟨hla, ha, hv, ih hrest (by omega)⟩

/-- A byte write inside the plane keeps the canonical form. -/
theorem Memory.write_wf {m : Memory} (h : m.wf = true) {i : Nat} (b : Byte) (hi : i < 16000) :
    (m.write i b).wf = true :=
  Memory.write_wfFrom h b hi (Nat.zero_le i)

theorem Memory.ext_from {lo : Nat} {m n : Memory} (hm : Memory.wfFrom lo m = true) (hn : Memory.wfFrom lo n = true)
    (h : ∀ i, m.read i = n.read i) : m = n := by
  induction m generalizing lo n with
  | nil =>
    cases n with
    | nil => rfl
    | cons c rest =>
      obtain ⟨a, b⟩ := c
      have := (Memory.wfFrom_cons.1 hn).2.2.1
      have e := h a
      rw [Memory.read_cons, if_pos rfl, Memory.read_nil] at e
      exact absurd e.symm this
  | cons c rest ih =>
    obtain ⟨a, b⟩ := c
    obtain ⟨-, -, hb, hrest⟩ := Memory.wfFrom_cons.1 hm
    cases n with
    | nil =>
      have e := h a
      rw [Memory.read_cons, if_pos rfl, Memory.read_nil] at e
      exact absurd e hb
    | cons d tail =>
      obtain ⟨a', b'⟩ := d
      obtain ⟨-, -, hb', htail⟩ := Memory.wfFrom_cons.1 hn
      have ea := h a
      have ea' := h a'
      simp only [Memory.read_cons, if_true] at ea ea'
      have haa : a' = a := by
        by_contra ne
        rw [if_neg ne] at ea
        rw [if_neg (Ne.symm ne)] at ea'
        rcases Nat.lt_or_gt_of_ne ne with lt | lt
        · exact hb' (ea'.symm.trans (Memory.read_below hrest (by omega)))
        · exact hb (ea.trans (Memory.read_below htail (by omega)))
      subst haa
      rw [if_pos rfl] at ea
      subst ea
      rw [ih hrest htail fun i => ?_]
      have ei := h i
      simp only [Memory.read_cons] at ei
      by_cases e : a' = i
      · subst e
        rw [Memory.read_below hrest (by omega), Memory.read_below htail (by omega)]
      · rwa [if_neg e, if_neg e] at ei

/-- Canonical planes that read alike are equal. -/
theorem Memory.ext_read {m n : Memory} (hm : m.wf = true) (hn : n.wf = true)
    (h : ∀ i, i < 16000 → m.read i = n.read i) : m = n := by
  refine Memory.ext_from hm hn fun i => ?_
  by_cases lt : i < 16000
  · exact h i lt
  · rw [Memory.read_beyond hm (by omega), Memory.read_beyond hn (by omega)]

/-! ## Moving bytes (R56, R57) -/

/-- What a downward move of the bytes reads as. -/
theorem Memory.read_moveDown (m : Memory) (k i : Nat) :
    (m.moveDown k).read i = if i + k < 16000 then m.read (i + k) else 0#8 := by
  induction m with
  | nil => simp [Memory.moveDown]
  | cons c rest ih =>
    obtain ⟨a, b⟩ := c
    simp only [Memory.moveDown] at ih ⊢
    rw [List.filterMap_cons]
    by_cases hc : k ≤ a ∧ a < 16000
    · simp only [if_pos hc, Memory.read_cons]
      by_cases e : a - k = i
      · rw [if_pos e, if_pos (by omega), if_pos (by omega)]
      · rw [if_neg e, ih]
        by_cases lt : i + k < 16000
        · rw [if_pos lt, if_pos lt, if_neg (by omega)]
        · rw [if_neg lt, if_neg lt]
    · simp only [if_neg hc, Memory.read_cons]
      rw [ih]
      by_cases lt : i + k < 16000
      · rw [if_pos lt, if_pos lt, if_neg (by omega)]
      · rw [if_neg lt, if_neg lt]

/-- What an upward move of the bytes reads as. -/
theorem Memory.read_moveUp (m : Memory) (k i : Nat) :
    (m.moveUp k).read i = if k ≤ i ∧ i < 16000 then m.read (i - k) else 0#8 := by
  induction m with
  | nil => simp [Memory.moveUp]
  | cons c rest ih =>
    obtain ⟨a, b⟩ := c
    simp only [Memory.moveUp] at ih ⊢
    rw [List.filterMap_cons]
    by_cases hc : a + k < 16000
    · simp only [if_pos hc, Memory.read_cons]
      by_cases e : a + k = i
      · rw [if_pos e, if_pos (by omega), if_pos (by omega)]
      · rw [if_neg e, ih]
        by_cases lt : k ≤ i ∧ i < 16000
        · rw [if_pos lt, if_pos lt, if_neg (by omega)]
        · rw [if_neg lt, if_neg lt]
    · simp only [if_neg hc, Memory.read_cons]
      rw [ih]
      by_cases lt : k ≤ i ∧ i < 16000
      · rw [if_pos lt, if_pos lt, if_neg (by omega)]
      · rw [if_neg lt, if_neg lt]

theorem Memory.moveDown_wfFrom {lo : Nat} {m : Memory} (h : Memory.wfFrom lo m = true) (k : Nat) :
    Memory.wfFrom (lo - k) (m.moveDown k) = true := by
  induction m generalizing lo with
  | nil => rfl
  | cons c rest ih =>
    obtain ⟨a, b⟩ := c
    obtain ⟨hla, ha, hb, hrest⟩ := Memory.wfFrom_cons.1 h
    have ih' := ih hrest
    simp only [Memory.moveDown] at ih' ⊢
    rw [List.filterMap_cons]
    by_cases hc : k ≤ a ∧ a < 16000
    · simp only [if_pos hc]
      exact Memory.wfFrom_cons.2 ⟨by omega, by omega, hb, Memory.wfFrom_lower ih' (by omega)⟩
    · simp only [if_neg hc]
      exact Memory.wfFrom_lower ih' (by omega)

theorem Memory.moveUp_wfFrom {lo : Nat} {m : Memory} (h : Memory.wfFrom lo m = true) (k : Nat) :
    Memory.wfFrom (lo + k) (m.moveUp k) = true := by
  induction m generalizing lo with
  | nil => rfl
  | cons c rest ih =>
    obtain ⟨a, b⟩ := c
    obtain ⟨hla, ha, hb, hrest⟩ := Memory.wfFrom_cons.1 h
    have ih' := ih hrest
    simp only [Memory.moveUp] at ih' ⊢
    rw [List.filterMap_cons]
    by_cases hc : a + k < 16000
    · simp only [if_pos hc]
      exact Memory.wfFrom_cons.2 ⟨by omega, hc, hb, Memory.wfFrom_lower ih' (by omega)⟩
    · simp only [if_neg hc]
      exact Memory.wfFrom_lower ih' (by omega)

/-- A downward move keeps the canonical form. -/
theorem Memory.moveDown_wf {m : Memory} (h : m.wf = true) (k : Nat) : (m.moveDown k).wf = true :=
  Memory.wfFrom_lower (Memory.moveDown_wfFrom h k) (Nat.zero_le _)

/-- An upward move keeps the canonical form. -/
theorem Memory.moveUp_wf {m : Memory} (h : m.wf = true) (k : Nat) : (m.moveUp k).wf = true :=
  Memory.wfFrom_lower (Memory.moveUp_wfFrom h k) (Nat.zero_le _)

/-- Scrolling up keeps the canonical form (R56). -/
theorem Memory.scrollUp_wf {m : Memory} (h : m.wf = true) (n : Int) : (m.scrollUp n).wf = true := by
  unfold Memory.scrollUp
  split
  · exact Memory.moveDown_wf h _
  · exact h

/-- Scrolling down keeps the canonical form (R57). -/
theorem Memory.scrollDown_wf {m : Memory} (h : m.wf = true) (n : Int) : (m.scrollDown n).wf = true := by
  unfold Memory.scrollDown
  split
  · exact Memory.moveUp_wf h _
  · exact h

/-- A window write keeps the canonical form (R60). -/
theorem Memory.windowWrite_wf {m : Memory} (h : m.wf = true) (i : Int) (b : Byte) : (m.windowWrite i b).wf = true := by
  unfold Memory.windowWrite
  split
  next hi => exact Memory.write_wf h b (by omega)
  next => exact h

/-- Everything a window write can do: its byte when the offset lies in the plane, and no other (R26, R60). -/
theorem Memory.read_windowWrite {m : Memory} (h : m.wf = true) (i : Int) (b : Byte) (j : Nat) :
    (m.windowWrite i b).read j = if InPlane i ∧ (j : Int) = i then b else m.read j := by
  unfold Memory.windowWrite
  by_cases hi : InPlane i
  · rw [if_pos hi, Memory.read_write h]
    by_cases e : j = i.toNat
    · rw [if_pos e, if_pos ⟨hi, by omega⟩]
    · rw [if_neg e, if_neg (by omega)]
  · rw [if_neg hi, if_neg (fun c => hi c.1)]

/-! ## The bytes as a list (R62) -/

theorem Memory.bytes_length (m : Memory) : m.bytes.length = 16000 := by simp [Memory.bytes]

/-- Byte `i` of the delivered bytes is byte `i` of the plane (R62). -/
theorem Memory.bytes_get (m : Memory) {i : Nat} (h : i < 16000) : m.bytes[i]? = some (m.read i) := by
  simp [Memory.bytes, h]

end Sys2Proof.Machine
end

