-- ==== Sys2Proof/Laws/Pixels.lean ====
section
/-! SUPPORT. A plane as pixels: what a pixel write, a sequence of them and each drawing operation can do, and that all of
them keep the canonical form. -/

namespace Sys2Proof.Machine

/-! ## The grid and the point lists -/

theorem mem_intRange {lo hi x : Int} : x ∈ intRange lo hi ↔ lo ≤ x ∧ x ≤ hi := by
  unfold intRange
  rw [List.mem_map]
  constructor
  · rintro ⟨k, hk, rfl⟩
    rw [List.mem_range] at hk
    simp only [Int.ofNat_eq_natCast]
    omega
  · intro h
    exact ⟨(x - lo).toNat, List.mem_range.2 (by omega), by simp only [Int.ofNat_eq_natCast]; omega⟩

/-- The points of a horizontal run: the grid points of its row between its ends (R52). -/
theorem mem_hlinePoints {x1 x2 y : Int} {p : Int × Int} :
    p ∈ hlinePoints x1 x2 y ↔ InBounds p.1 p.2 ∧ p.2 = y ∧ min x1 x2 ≤ p.1 ∧ p.1 ≤ max x1 x2 := by
  obtain ⟨a, b⟩ := p
  unfold hlinePoints
  split
  next hy =>
    simp only [List.mem_map, mem_intRange, Prod.mk.injEq]
    constructor
    · rintro ⟨x, hx, rfl, rfl⟩
      refine ⟨⟨?_, ?_, hy.1, hy.2⟩, rfl, ?_, ?_⟩ <;> omega
    · rintro ⟨hb, rfl, h1, h2⟩
      exact ⟨a, by omega, rfl, rfl⟩
  next hy =>
    simp only [List.not_mem_nil, false_iff]
    rintro ⟨hb, rfl, -⟩
    exact hy ⟨hb.2.2.1, hb.2.2.2⟩

/-- The points of a vertical run: the grid points of its column between its ends (R53). -/
theorem mem_vlinePoints {x y1 y2 : Int} {p : Int × Int} :
    p ∈ vlinePoints x y1 y2 ↔ InBounds p.1 p.2 ∧ p.1 = x ∧ min y1 y2 ≤ p.2 ∧ p.2 ≤ max y1 y2 := by
  obtain ⟨a, b⟩ := p
  unfold vlinePoints
  split
  next hx =>
    simp only [List.mem_map, mem_intRange, Prod.mk.injEq]
    constructor
    · rintro ⟨y, hy, rfl, rfl⟩
      refine ⟨⟨hx.1, hx.2, ?_, ?_⟩, rfl, ?_, ?_⟩ <;> omega
    · rintro ⟨hb, rfl, h1, h2⟩
      exact ⟨b, by omega, rfl, rfl⟩
  next hx =>
    simp only [List.not_mem_nil, false_iff]
    rintro ⟨hb, rfl, -⟩
    exact hx ⟨hb.1, hb.2.1⟩

/-- The points of a filled rectangle: the grid points between its corners (R54). -/
theorem mem_rectPoints {x1 y1 x2 y2 : Int} {p : Int × Int} :
    p ∈ rectPoints x1 y1 x2 y2 ↔ InBounds p.1 p.2 ∧
      min x1 x2 ≤ p.1 ∧ p.1 ≤ max x1 x2 ∧ min y1 y2 ≤ p.2 ∧ p.2 ≤ max y1 y2 := by
  obtain ⟨a, b⟩ := p
  simp only [rectPoints, List.mem_flatMap, List.mem_map, mem_intRange, Prod.mk.injEq]
  constructor
  · rintro ⟨y, hy, x, hx, rfl, rfl⟩
    refine ⟨⟨?_, ?_, ?_, ?_⟩, ?_, ?_, ?_, ?_⟩ <;> omega
  · rintro ⟨hb, h1, h2, h3, h4⟩
    exact ⟨b, by omega, a, by omega, rfl, rfl⟩

/-- The iterations of a copy that change something: both points in the grid (R58). -/
theorem mem_copySteps {sx sy dx dy w h : Int} {p : Int × Int} :
    p ∈ copySteps sx sy dx dy w h ↔ (0 ≤ p.1 ∧ p.1 < w) ∧ (0 ≤ p.2 ∧ p.2 < h) ∧
      InBounds (sx + p.1) (sy + p.2) ∧ InBounds (dx + p.1) (dy + p.2) := by
  obtain ⟨a, b⟩ := p
  simp only [copySteps, List.mem_flatMap, List.mem_map, mem_intRange, Prod.mk.injEq]
  constructor
  · rintro ⟨j, hj, i, hi, rfl, rfl⟩
    refine ⟨⟨?_, ?_⟩, ⟨?_, ?_⟩, ⟨?_, ?_, ?_, ?_⟩, ⟨?_, ?_, ?_, ?_⟩⟩ <;> omega
  · rintro ⟨h1, h2, h3, h4⟩
    exact ⟨b, by omega, a, by omega, rfl, rfl⟩

theorem byteIndex_lt {x y : Int} (h : InBounds x y) : byteIndex x y < 16000 := by
  unfold byteIndex
  omega

theorem bitPos_lt (x : Int) : bitPos x < 8 := by
  unfold bitPos
  omega

/-- Every pixel lies in exactly one bit of one byte (R11). -/
theorem pixel_injective {x y x' y' : Int} (h : InBounds x y) (h' : InBounds x' y')
    (hi : byteIndex x y = byteIndex x' y') (hb : bitPos x = bitPos x') : x = x' ∧ y = y' := by
  unfold byteIndex at hi
  unfold bitPos at hb
  omega

/-! ## Bits of a byte -/

/-- Everything `setByteBit` can do: that bit, and no other (R50). -/
theorem getLsbD_setByteBit (c : Byte) {k : Nat} (hk : k < 8) (b : Bool) (j : Nat) :
    (setByteBit c k b).getLsbD j = if j = k then b else c.getLsbD j := by
  have mask : (bitMask k).getLsbD j = decide (j = k) := by
    unfold bitMask
    by_cases hj : j = k
    · subst hj
      simp [hk]
    · by_cases lt : j < k
      · simp [hj, lt]
      · have pos : j - k ≠ 0 := by omega
        simp [hj, pos]
  by_cases h8 : j < 8
  · cases b
    · simp only [setByteBit, Bool.false_eq_true, if_false, BitVec.getLsbD_and, BitVec.getLsbD_not, mask, h8,
        decide_true, Bool.true_and]
      by_cases hj : j = k <;> simp [hj]
    · simp only [setByteBit, if_true, BitVec.getLsbD_or, mask]
      by_cases hj : j = k <;> simp [hj]
  · rw [if_neg (by omega), BitVec.getLsbD_of_ge _ _ (by omega), BitVec.getLsbD_of_ge _ _ (by omega)]

/-! ## Pixel writes -/

/-- A pixel write keeps the canonical form. -/
theorem Memory.setPix_wf {m : Memory} (h : m.wf = true) {x y : Int} (hb : InBounds x y) (b : Bool) :
    (m.setPix x y b).wf = true :=
  Memory.write_wf h _ (byteIndex_lt hb)

/-- Everything a pixel write inside the grid can do to the pixels (R8). -/
theorem Memory.pix_setPix {m : Memory} (h : m.wf = true) {x y x' y' : Int} (hb : InBounds x y) (hb' : InBounds x' y')
    (b : Bool) : (m.setPix x y b).pix x' y' = if x' = x ∧ y' = y then b else m.pix x' y' := by
  unfold Memory.setPix Memory.pix
  rw [Memory.read_write h]
  by_cases hi : byteIndex x' y' = byteIndex x y
  · rw [if_pos hi, getLsbD_setByteBit _ (bitPos_lt x)]
    by_cases hp : bitPos x' = bitPos x
    · rw [if_pos hp, if_pos (pixel_injective hb' hb hi hp)]
    · rw [if_neg hp, if_neg (fun e => hp (by rw [e.1])), hi]
  · rw [if_neg hi, if_neg (fun e => hi (by rw [e.1, e.2]))]

/-- Everything a pixel write inside the grid can do to the bytes (R50). -/
theorem Memory.read_setPix {m : Memory} (h : m.wf = true) (x y : Int) (b : Bool) (i : Nat) :
    (m.setPix x y b).read i =
      if i = byteIndex x y then setByteBit (m.read (byteIndex x y)) (bitPos x) b else m.read i :=
  Memory.read_write h _ _ _

theorem Memory.setPixel_wf {m : Memory} (h : m.wf = true) (x y : Int) (b : Bool) : (m.setPixel x y b).wf = true := by
  unfold Memory.setPixel
  split
  next hb => exact Memory.setPix_wf h hb b
  next => exact h

/-- Everything a clipped pixel write can do to the pixels (R27, R50). -/
theorem Memory.pix_setPixel {m : Memory} (h : m.wf = true) (x y : Int) {x' y' : Int} (hb' : InBounds x' y') (b : Bool) :
    (m.setPixel x y b).pix x' y' = if x' = x ∧ y' = y then b else m.pix x' y' := by
  unfold Memory.setPixel
  by_cases hb : InBounds x y
  · rw [if_pos hb, Memory.pix_setPix h hb hb']
  · rw [if_neg hb, if_neg (fun e => hb (by rw [← e.1, ← e.2]; exact hb'))]

/-- A clipped pixel write leaves every other byte alone. -/
theorem Memory.read_setPixel_other {m : Memory} (h : m.wf = true) {x y : Int} (b : Bool) {i : Nat}
    (ne : InBounds x y → byteIndex x y ≠ i) : (m.setPixel x y b).read i = m.read i := by
  unfold Memory.setPixel
  split
  next hb => rw [Memory.read_setPix h, if_neg (fun e => ne hb e.symm)]
  next => rfl

/-! ## Sequences of pixel writes -/

@[simp] theorem Memory.plot_nil (m : Memory) : m.plot [] = m := rfl

theorem Memory.plot_cons (m : Memory) (p : Int × Int × Bool) (ps : List (Int × Int × Bool)) :
    m.plot (p :: ps) = (m.setPixel p.1 p.2.1 p.2.2).plot ps := rfl

theorem Memory.plot_append (m : Memory) (ps qs : List (Int × Int × Bool)) :
    m.plot (ps ++ qs) = (m.plot ps).plot qs := by
  simp [Memory.plot, List.foldl_append]

theorem Memory.plot_wf {m : Memory} (h : m.wf = true) (ps : List (Int × Int × Bool)) : (m.plot ps).wf = true := by
  induction ps generalizing m with
  | nil => exact h
  | cons p ps ih => exact ih (Memory.setPixel_wf h _ _ _)

/-- After a sequence of pixel writes a pixel holds what the last write to it wrote, or what it held (R9). -/
theorem Memory.pix_plot {m : Memory} (h : m.wf = true) (ps : List (Int × Int × Bool)) {x y : Int} (hb : InBounds x y) :
    (m.plot ps).pix x y = ps.foldl (fun v p => if x = p.1 ∧ y = p.2.1 then p.2.2 else v) (m.pix x y) := by
  induction ps generalizing m with
  | nil => rfl
  | cons p ps ih => rw [Memory.plot_cons, ih (Memory.setPixel_wf h _ _ _), Memory.pix_setPixel h _ _ hb, List.foldl_cons]

theorem Memory.read_plot_other {m : Memory} (h : m.wf = true) (ps : List (Int × Int × Bool)) {i : Nat}
    (ne : ∀ p ∈ ps, InBounds p.1 p.2.1 → byteIndex p.1 p.2.1 ≠ i) : (m.plot ps).read i = m.read i := by
  induction ps generalizing m with
  | nil => rfl
  | cons p ps ih =>
    rw [Memory.plot_cons, ih (Memory.setPixel_wf h _ _ _) fun q hq => ne q (List.mem_cons_of_mem _ hq),
      Memory.read_setPixel_other h _ (ne p List.mem_cons_self)]

theorem Memory.paint_wf {m : Memory} (h : m.wf = true) (points : List (Int × Int)) (b : Bool) :
    (m.paint points b).wf = true :=
  Memory.plot_wf h _

/-- Everything painting can do to the pixels: the named points, and no other. -/
theorem Memory.pix_paint {m : Memory} (h : m.wf = true) (points : List (Int × Int)) (b : Bool) {x y : Int}
    (hb : InBounds x y) : (m.paint points b).pix x y = if (x, y) ∈ points then b else m.pix x y := by
  induction points generalizing m with
  | nil => rfl
  | cons p points ih =>
    obtain ⟨a, c⟩ := p
    have e : m.paint ((a, c) :: points) b = (m.setPixel a c b).paint points b := rfl
    rw [e, ih (Memory.setPixel_wf h _ _ _), Memory.pix_setPixel h _ _ hb]
    by_cases hp : (x, y) ∈ points
    · rw [if_pos hp, if_pos (List.mem_cons_of_mem _ hp)]
    · simp only [hp, if_false, List.mem_cons, or_false, Prod.mk.injEq]

/-- Painting leaves alone every byte that holds no named grid point. -/
theorem Memory.read_paint_other {m : Memory} (h : m.wf = true) (points : List (Int × Int)) (b : Bool) {i : Nat}
    (ne : ∀ p ∈ points, InBounds p.1 p.2 → byteIndex p.1 p.2 ≠ i) : (m.paint points b).read i = m.read i := by
  refine Memory.read_plot_other h _ fun q hq => ?_
  obtain ⟨p, hp, rfl⟩ := List.mem_map.1 hq
  exact ne p hp

/-! ## Planes with the same pixels are equal (R11) -/

/-- Bit `k` of byte `i` is the pixel at column `8*(i mod 80) + 7 - k` of row `i div 80` (R21). -/
theorem Memory.read_bit_eq_pix (m : Memory) {i k : Nat} (hk : k < 8) :
    (m.read i).getLsbD k = m.pix (8 * ((i % 80 : Nat) : Int) + 7 - k) ((i / 80 : Nat) : Int) := by
  have e1 : byteIndex (8 * ((i % 80 : Nat) : Int) + 7 - k) ((i / 80 : Nat) : Int) = i := by
    unfold byteIndex
    omega
  have e2 : bitPos (8 * ((i % 80 : Nat) : Int) + 7 - k) = k := by
    unfold bitPos
    omega
  unfold Memory.pix
  rw [e1, e2]

theorem Memory.ext_pix {m n : Memory} (hm : m.wf = true) (hn : n.wf = true)
    (h : ∀ x y, InBounds x y → m.pix x y = n.pix x y) : m = n := by
  refine Memory.ext_read hm hn fun i hi => BitVec.eq_of_getLsbD_eq fun k hk => ?_
  rw [Memory.read_bit_eq_pix m hk, Memory.read_bit_eq_pix n hk]
  exact h _ _ ⟨by omega, by omega, by omega, by omega⟩

/-! ## The drawing operations keep the canonical form -/

theorem Memory.hline_wf {m : Memory} (h : m.wf = true) (x1 x2 y : Int) (b : Bool) : (m.hline x1 x2 y b).wf = true :=
  Memory.paint_wf h _ _

theorem Memory.vline_wf {m : Memory} (h : m.wf = true) (x y1 y2 : Int) (b : Bool) : (m.vline x y1 y2 b).wf = true :=
  Memory.paint_wf h _ _

theorem Memory.fillRect_wf {m : Memory} (h : m.wf = true) (x1 y1 x2 y2 : Int) (b : Bool) :
    (m.fillRect x1 y1 x2 y2 b).wf = true :=
  Memory.paint_wf h _ _

theorem Memory.copyRegion_wf {m : Memory} (h : m.wf = true) (policy : CopyPolicy) (sx sy dx dy w ht : Int) :
    (Memory.copyRegion policy m sx sy dx dy w ht).wf = true := by
  suffices key : ∀ (f : Memory → Int × Int → Bool) (ps : List (Int × Int)) (acc : Memory), acc.wf = true →
      (∀ p ∈ ps, InBounds (dx + p.1) (dy + p.2)) →
      (ps.foldl (fun a p => a.setPix (dx + p.1) (dy + p.2) (f a p)) acc).wf = true by
    exact key _ _ m h fun p hp => (mem_copySteps.1 hp).2.2.2
  intro f ps
  induction ps with
  | nil => exact fun acc ha _ => ha
  | cons p ps ih =>
    intro acc ha hp
    exact ih _ (Memory.setPix_wf ha (hp p List.mem_cons_self) _) fun q hq => hp q (List.mem_cons_of_mem _ hq)

theorem Memory.fillRectangle_wf {m : Memory} (h : m.wf = true) (x y w ht v : Int) :
    (m.fillRectangle x y w ht v).wf = true := by
  unfold Memory.fillRectangle
  split
  · exact Memory.fillRect_wf h _ _ _ _ _
  · exact h

theorem Memory.drawRectangle_wf {m : Memory} (h : m.wf = true) (x y w ht v : Int) :
    (m.drawRectangle x y w ht v).wf = true := by
  unfold Memory.drawRectangle
  have edges := Memory.hline_wf (Memory.hline_wf h x (x + w - 1) y (pixelBit v)) x (x + w - 1) (y + ht - 1) (pixelBit v)
  split
  · show Memory.wf (if 2 < ht then _ else _) = true
    split
    · exact Memory.vline_wf (Memory.vline_wf edges _ _ _ _) _ _ _ _
    · exact edges
  · exact h

theorem Memory.plotRequests_wf {m : Memory} (h : m.wf = true) (ps : List PixelRequest) :
    (m.plotRequests ps).wf = true :=
  Memory.plot_wf h _

theorem Memory.draw_wf {m : Memory} (h : m.wf = true) (d : DrawCall) : (m.draw d).wf = true := by
  cases d with
  | fillRectangle x y w ht v => exact Memory.fillRectangle_wf h x y w ht v
  | drawRectangle x y w ht v => exact Memory.drawRectangle_wf h x y w ht v
  | plot ps => exact Memory.plotRequests_wf h ps
  | renderCharacter x y cell => exact Memory.plot_wf h _

theorem Memory.invertCell_wf {m : Memory} (h : m.wf = true) (cx : Fin 80) (cy : Fin 25) :
    (m.invertCell cx cy).wf = true := by
  unfold Memory.invertCell
  refine List.foldlRecOn (motive := fun a : Memory => a.wf = true) _ _ h fun rows hr r _ => ?_
  exact List.foldlRecOn (motive := fun a : Memory => a.wf = true) _ _ hr fun acc ha c _ => Memory.setPixel_wf ha _ _ _

theorem Memory.render_wf {m : Memory} (h : m.wf = true) (screen : TextScreen) : (m.render screen).wf = true := by
  unfold Memory.render
  have painted := Memory.plot_wf h (screenPixels screen)
  split
  · exact Memory.invertCell_wf painted _ _
  · exact painted

end Sys2Proof.Machine
end

