-- ==== Sys2Proof/Laws/Clients.lean ====
section
/-! SUPPORT. What the text renderer's traffic does to the pixels: the pixels of a character and of a screen, and the
cursor overlay. -/

namespace Sys2Proof.Machine

/-- A pixel written by a sequence whose writes to it all agree holds that value (R71: "they name distinct pixels"). -/
theorem Memory.pix_plot_of_mem {m : Memory} (h : m.wf = true) {ps : List (Int × Int × Bool)} {p : Int × Int × Bool}
    (hp : p ∈ ps) (hb : InBounds p.1 p.2.1) (agree : ∀ q ∈ ps, p.1 = q.1 ∧ p.2.1 = q.2.1 → q.2.2 = p.2.2) :
    (m.plot ps).pix p.1 p.2.1 = p.2.2 := by
  have key : ∀ (l : List (Int × Int × Bool)) (v : Bool), (∀ q ∈ l, p.1 = q.1 ∧ p.2.1 = q.2.1 → q.2.2 = p.2.2) →
      v = p.2.2 ∨ p ∈ l → l.foldl (fun v q => if p.1 = q.1 ∧ p.2.1 = q.2.1 then q.2.2 else v) v = p.2.2 := by
    intro l
    induction l with
    | nil => exact fun v _ hv => hv.resolve_right (List.not_mem_nil)
    | cons q l ih =>
      intro v hl hv
      rw [List.foldl_cons]
      refine ih _ (fun r hr => hl r (List.mem_cons_of_mem _ hr)) ?_
      by_cases e : p.1 = q.1 ∧ p.2.1 = q.2.1
      · exact .inl (by rw [if_pos e]; exact hl q List.mem_cons_self e)
      · rw [if_neg e]
        refine hv.imp_right fun hm => ?_
        rcases List.mem_cons.1 hm with rfl | hm
        · exact absurd ⟨rfl, rfl⟩ e
        · exact hm
  rw [Memory.pix_plot h _ hb]
  exact key ps _ agree (.inr hp)

/-- A pixel no write of the sequence names keeps its value. -/
theorem Memory.pix_plot_of_not_mem {m : Memory} (h : m.wf = true) {ps : List (Int × Int × Bool)} {x y : Int}
    (hb : InBounds x y) (none_names : ∀ q ∈ ps, ¬ (x = q.1 ∧ y = q.2.1)) : (m.plot ps).pix x y = m.pix x y := by
  induction ps generalizing m with
  | nil => rfl
  | cons q ps ih =>
    rw [Memory.plot_cons, ih (Memory.setPixel_wf h _ _ _) fun r hr => none_names r (List.mem_cons_of_mem _ hr),
      Memory.pix_setPixel h _ _ hb, if_neg (none_names q List.mem_cons_self)]

/-- The 64 requests of a character (R71). -/
theorem mem_characterPixels {x y : Int} {cell : TextCell} {q : Int × Int × Bool} :
    q ∈ characterPixels x y cell ↔
      ∃ r c : Fin 8, q = (x + (c.val : Int), y + (r.val : Int), pixelBit (characterValue cell r c)) := by
  simp [characterPixels, eq_comm]

/-- The requests of a full repaint: those of its 2,000 cells (R72). -/
theorem mem_screenPixels {screen : TextScreen} {q : Int × Int × Bool} :
    q ∈ screenPixels screen ↔ ∃ k : Fin 2000,
      q ∈ characterPixels (8 * ((k.val % 80 : Nat) : Int)) (8 * ((k.val / 80 : Nat) : Int)) (screen.cells.get k) := by
  simp [screenPixels]

/-- The pixels of a text cell, row by row (R72). -/
def cellPoints (cx : Fin 80) (cy : Fin 25) : List (Int × Int) :=
  (List.finRange 8).flatMap fun r =>
    (List.finRange 8).map fun c => (8 * (cx.val : Int) + (c.val : Int), 8 * (cy.val : Int) + (r.val : Int))

theorem mem_cellPoints {cx : Fin 80} {cy : Fin 25} {p : Int × Int} :
    p ∈ cellPoints cx cy ↔ ∃ r c : Fin 8, p = (8 * (cx.val : Int) + (c.val : Int), 8 * (cy.val : Int) + (r.val : Int)) := by
  simp [cellPoints, eq_comm]

theorem cellPoints_nodup (cx : Fin 80) (cy : Fin 25) : (cellPoints cx cy).Nodup := by
  refine List.nodup_flatMap.2 ⟨fun r _ => ?_, ?_⟩
  · refine (List.nodup_finRange 8).map fun c c' e => ?_
    simp only [Prod.mk.injEq] at e
    omega
  · refine (List.nodup_finRange 8).imp fun {r r'} ne => ?_
    intro p hp hp'
    obtain ⟨c, -, rfl⟩ := List.mem_map.1 hp
    obtain ⟨c', -, e⟩ := List.mem_map.1 hp'
    simp only [Prod.mk.injEq] at e
    exact ne (Fin.ext (by omega))

/-- The cursor overlay inverts the pixels of its cell, and no other (R72). -/
theorem Memory.pix_invertCell {m : Memory} (h : m.wf = true) (cx : Fin 80) (cy : Fin 25) {x y : Int}
    (hb : InBounds x y) :
    (m.invertCell cx cy).pix x y = if (x, y) ∈ cellPoints cx cy then !m.pix x y else m.pix x y := by
  have key : ∀ (ps : List (Int × Int)) (acc : Memory), acc.wf = true → ps.Nodup →
      (ps.foldl (fun a p => a.setPixel p.1 p.2 (!a.getPixel p.1 p.2)) acc).pix x y =
        if (x, y) ∈ ps then !acc.pix x y else acc.pix x y := by
    intro ps
    induction ps with
    | nil => exact fun acc _ _ => rfl
    | cons p ps ih =>
      intro acc ha nd
      obtain ⟨a, b⟩ := p
      rw [List.nodup_cons] at nd
      rw [List.foldl_cons, ih _ (Memory.setPixel_wf ha _ _ _) nd.2, Memory.pix_setPixel ha _ _ hb]
      by_cases e : x = a ∧ y = b
      · obtain ⟨rfl, rfl⟩ := e
        rw [if_neg nd.1, if_pos ⟨rfl, rfl⟩, if_pos List.mem_cons_self, Memory.getPixel, if_pos hb]
      · rw [if_neg e]
        by_cases hp : (x, y) ∈ ps
        · rw [if_pos hp, if_pos (List.mem_cons_of_mem _ hp)]
        · rw [if_neg hp, if_neg fun hm => (List.mem_cons.1 hm).elim (fun eq => e (Prod.mk.inj eq)) hp]
  have flat : m.invertCell cx cy =
      (cellPoints cx cy).foldl (fun a p => a.setPixel p.1 p.2 (!a.getPixel p.1 p.2)) m := by
    simp only [cellPoints, List.foldl_flatMap, List.foldl_map]
    rfl
  rw [flat, key _ m h (cellPoints_nodup cx cy)]

end Sys2Proof.Machine
end

