-- ==== Sys2Proof/Laws/Decode.lean ====
section
/-! SUPPORT. The fields of a request header and of an operand word. -/

namespace Sys2Proof

/-- The field `op` is the number in bits [3:0] of the header (R39). -/
theorem Frame.op_eq_bits (f : Frame) : f.op = (f.h.extractLsb' 0 4).toNat := by
  simp [Frame.op, BitVec.extractLsb'_toNat]

/-- `op` takes sixteen values (R40). -/
theorem Frame.op_lt (f : Frame) : f.op < 16 := Nat.mod_lt _ (by decide)

/-- The value of an operand word fits an operand word (R44). -/
theorem operandFits_val (a : Word) : operandFits (val a) = true := by
  have upper := BitVec.toInt_lt (x := a)
  have lower := BitVec.le_toInt (x := a)
  norm_num at upper lower
  unfold operandFits val
  rw [Bool.and_eq_true]
  exact ⟨decide_eq_true (by omega), decide_eq_true (by omega)⟩

/-- A value that fits comes back from its operand word (R44). -/
theorem val_operandWord {x : Int} (h : operandFits x = true) : val (operandWord x) = x := by
  simp only [operandFits, Bool.and_eq_true, decide_eq_true_eq] at h
  unfold val operandWord
  rw [BitVec.toInt_ofInt, Int.bmod_def]
  norm_num
  split <;> omega

end Sys2Proof
end

