-- ==== Sys2Proof/Laws/PerInstr.lean ====
section
/-! SUPPORT. Facts about each instruction as syntax, one lemma per constructor. -/

namespace Sys2Proof.Laws

/-- The port and the opcode spec/opcode_table.json gives the instruction's row: `true` for the request port. -/
def tableOpcode : Instr → Bool × Nat
  | .nop => (true, 0x0)
  | .clear => (true, 0x1)
  | .swap => (true, 0x2)
  | .setpix _ _ _ => (true, 0x3)
  | .getpix _ _ => (true, 0x4)
  | .hline _ _ _ _ => (true, 0x5)
  | .vline _ _ _ _ => (true, 0x6)
  | .fillrect _ _ _ _ _ => (true, 0x7)
  | .scrollup _ => (true, 0x8)
  | .scrolldn _ => (true, 0x9)
  | .copyrgn _ _ _ _ _ _ => (true, 0xa)
  | .hostrd _ => (true, 0xb)
  | .hostwr _ _ => (true, 0xc)
  | .snapshot => (true, 0xd)
  | .reset => (true, 0xe)
  | .reservedF => (true, 0xf)
  | .cmdNop => (false, 0x0)
  | .cmdClear => (false, 0x1)
  | .cmdSwap => (false, 0x2)
  | .cmdSetPixel => (false, 0x3)
  | .cmdLine => (false, 0x4)
  | .cmdRectOutline => (false, 0x5)
  | .cmdRectFill => (false, 0x6)
  | .cmdCircleOutline => (false, 0x7)
  | .cmdCircleFill => (false, 0x8)
  | .cmdCopyRegion => (false, 0x9)
  | .cmdTextWriteChar => (false, 0xa)
  | .cmdTextSetCursor => (false, 0xb)
  | .cmdTextClear => (false, 0xc)
  | .cmdTextScrollUp => (false, 0xd)
  | .cmdTextScrollDown => (false, 0xe)

/-- The port and the opcode a transaction carries: `H[3:0]` of a request, the whole value of a command. -/
def carriedOpcode : Transaction → Bool × Nat
  | .request f => (true, f.op)
  | .command c => (false, c.toNat)

/-- The encoder writes the table's opcode on the table's port, for every operand. -/
def Opcode.Statement (i : Instr) : Prop := carriedOpcode (encode i) = tableOpcode i

theorem Opcode.nop : Opcode.Statement (.nop) := rfl
theorem Opcode.clear : Opcode.Statement (.clear) := rfl
theorem Opcode.swap : Opcode.Statement (.swap) := rfl
theorem Opcode.setpix (x y v : Int) : Opcode.Statement (.setpix x y v) := rfl
theorem Opcode.getpix (x y : Int) : Opcode.Statement (.getpix x y) := rfl
theorem Opcode.hline (x1 x2 y v : Int) : Opcode.Statement (.hline x1 x2 y v) := rfl
theorem Opcode.vline (x y1 y2 v : Int) : Opcode.Statement (.vline x y1 y2 v) := rfl
theorem Opcode.fillrect (x1 y1 x2 y2 v : Int) : Opcode.Statement (.fillrect x1 y1 x2 y2 v) := rfl
theorem Opcode.scrollup (n : Int) : Opcode.Statement (.scrollup n) := rfl
theorem Opcode.scrolldn (n : Int) : Opcode.Statement (.scrolldn n) := rfl
theorem Opcode.copyrgn (sx sy dx dy w h : Int) : Opcode.Statement (.copyrgn sx sy dx dy w h) := rfl
theorem Opcode.hostrd (i : Int) : Opcode.Statement (.hostrd i) := rfl
theorem Opcode.hostwr (i : Int) (w : Word) : Opcode.Statement (.hostwr i w) := rfl
theorem Opcode.snapshot : Opcode.Statement (.snapshot) := rfl
theorem Opcode.reset : Opcode.Statement (.reset) := rfl
theorem Opcode.reservedF : Opcode.Statement (.reservedF) := rfl
theorem Opcode.cmdNop : Opcode.Statement (.cmdNop) := rfl
theorem Opcode.cmdClear : Opcode.Statement (.cmdClear) := rfl
theorem Opcode.cmdSwap : Opcode.Statement (.cmdSwap) := rfl
theorem Opcode.cmdSetPixel : Opcode.Statement (.cmdSetPixel) := rfl
theorem Opcode.cmdLine : Opcode.Statement (.cmdLine) := rfl
theorem Opcode.cmdRectOutline : Opcode.Statement (.cmdRectOutline) := rfl
theorem Opcode.cmdRectFill : Opcode.Statement (.cmdRectFill) := rfl
theorem Opcode.cmdCircleOutline : Opcode.Statement (.cmdCircleOutline) := rfl
theorem Opcode.cmdCircleFill : Opcode.Statement (.cmdCircleFill) := rfl
theorem Opcode.cmdCopyRegion : Opcode.Statement (.cmdCopyRegion) := rfl
theorem Opcode.cmdTextWriteChar : Opcode.Statement (.cmdTextWriteChar) := rfl
theorem Opcode.cmdTextSetCursor : Opcode.Statement (.cmdTextSetCursor) := rfl
theorem Opcode.cmdTextClear : Opcode.Statement (.cmdTextClear) := rfl
theorem Opcode.cmdTextScrollUp : Opcode.Statement (.cmdTextScrollUp) := rfl
theorem Opcode.cmdTextScrollDown : Opcode.Statement (.cmdTextScrollDown) := rfl

end Sys2Proof.Laws
end

