-- ==== Sys2Proof/Laws/State.lean ====
section
/-! SUPPORT. One lemma per field per update of the state, so that no later proof unfolds a record update. -/

namespace Sys2Proof.Machine

@[simp] theorem State.setBack_back (s : State) (m : Memory) : (s.setBack m).back = m := rfl
@[simp] theorem State.setBack_front (s : State) (m : Memory) : (s.setBack m).front = s.front := rfl
@[simp] theorem State.setBack_regs (s : State) (m : Memory) : (s.setBack m).regs = s.regs := rfl
@[simp] theorem State.setBack_pending (s : State) (m : Memory) : (s.setBack m).pending = s.pending := rfl
@[simp] theorem State.setBack_inbox (s : State) (m : Memory) : (s.setBack m).inbox = s.inbox := rfl
@[simp] theorem State.setBack_outputs (s : State) (m : Memory) : (s.setBack m).outputs = s.outputs := rfl
@[simp] theorem State.setBack_freeCount (s : State) (m : Memory) : (s.setBack m).freeCount = s.freeCount := rfl

@[simp] theorem State.setFront_back (s : State) (m : Memory) : (s.setFront m).back = s.back := rfl
@[simp] theorem State.setFront_front (s : State) (m : Memory) : (s.setFront m).front = m := rfl
@[simp] theorem State.setFront_regs (s : State) (m : Memory) : (s.setFront m).regs = s.regs := rfl
@[simp] theorem State.setFront_pending (s : State) (m : Memory) : (s.setFront m).pending = s.pending := rfl
@[simp] theorem State.setFront_inbox (s : State) (m : Memory) : (s.setFront m).inbox = s.inbox := rfl
@[simp] theorem State.setFront_outputs (s : State) (m : Memory) : (s.setFront m).outputs = s.outputs := rfl
@[simp] theorem State.setFront_freeCount (s : State) (m : Memory) : (s.setFront m).freeCount = s.freeCount := rfl

@[simp] theorem State.emit_back (s : State) (o : Output) : (s.emit o).back = s.back := rfl
@[simp] theorem State.emit_front (s : State) (o : Output) : (s.emit o).front = s.front := rfl
@[simp] theorem State.emit_regs (s : State) (o : Output) : (s.emit o).regs = s.regs := rfl
@[simp] theorem State.emit_pending (s : State) (o : Output) : (s.emit o).pending = s.pending := rfl
@[simp] theorem State.emit_inbox (s : State) (o : Output) : (s.emit o).inbox = s.inbox := rfl
@[simp] theorem State.emit_outputs (s : State) (o : Output) : (s.emit o).outputs = s.outputs ++ [o] := rfl
@[simp] theorem State.emit_freeCount (s : State) (o : Output) : (s.emit o).freeCount = s.freeCount := rfl

@[simp] theorem State.raise_back (s : State) (f : Byte) : (s.raise f).back = s.back := rfl
@[simp] theorem State.raise_front (s : State) (f : Byte) : (s.raise f).front = s.front := rfl
@[simp] theorem State.raise_regs (s : State) (f : Byte) : (s.raise f).regs = s.regs := rfl
@[simp] theorem State.raise_pending (s : State) (f : Byte) : (s.raise f).pending = raiseFlags s.pending f := rfl
@[simp] theorem State.raise_inbox (s : State) (f : Byte) : (s.raise f).inbox = s.inbox := rfl
@[simp] theorem State.raise_outputs (s : State) (f : Byte) : (s.raise f).outputs = s.outputs := rfl
@[simp] theorem State.raise_freeCount (s : State) (f : Byte) : (s.raise f).freeCount = s.freeCount := rfl

@[simp] theorem State.clearPending_back (s : State) (f : Byte) : (s.clearPending f).back = s.back := rfl
@[simp] theorem State.clearPending_front (s : State) (f : Byte) : (s.clearPending f).front = s.front := rfl
@[simp] theorem State.clearPending_regs (s : State) (f : Byte) : (s.clearPending f).regs = s.regs := rfl
@[simp] theorem State.clearPending_pending (s : State) (f : Byte) : (s.clearPending f).pending = clearFlags s.pending f := rfl
@[simp] theorem State.clearPending_inbox (s : State) (f : Byte) : (s.clearPending f).inbox = s.inbox := rfl
@[simp] theorem State.clearPending_outputs (s : State) (f : Byte) : (s.clearPending f).outputs = s.outputs := rfl
@[simp] theorem State.clearPending_freeCount (s : State) (f : Byte) : (s.clearPending f).freeCount = s.freeCount := rfl

@[simp] theorem State.setBlank_back (s : State) (b : Bool) : (s.setBlank b).back = s.back := rfl
@[simp] theorem State.setBlank_front (s : State) (b : Bool) : (s.setBlank b).front = s.front := rfl
@[simp] theorem State.setBlank_regs (s : State) (b : Bool) : (s.setBlank b).regs = s.regs := rfl
@[simp] theorem State.setBlank_pending (s : State) (b : Bool) : (s.setBlank b).pending = tickFlags s.pending b := rfl
@[simp] theorem State.setBlank_inbox (s : State) (b : Bool) : (s.setBlank b).inbox = s.inbox := rfl
@[simp] theorem State.setBlank_outputs (s : State) (b : Bool) : (s.setBlank b).outputs = s.outputs := rfl
@[simp] theorem State.setBlank_freeCount (s : State) (b : Bool) : (s.setBlank b).freeCount = s.freeCount := rfl

@[simp] theorem State.blankTick_back (s : State) : (s.blankTick).back = s.back := rfl
@[simp] theorem State.blankTick_front (s : State) : (s.blankTick).front = s.front := rfl
@[simp] theorem State.blankTick_regs (s : State) : (s.blankTick).regs = s.regs := rfl
@[simp] theorem State.blankTick_pending (s : State) : (s.blankTick).pending = tickFlags s.pending (Config.verticalBlank s.freeCount) := rfl
@[simp] theorem State.blankTick_inbox (s : State) : (s.blankTick).inbox = s.inbox := rfl
@[simp] theorem State.blankTick_outputs (s : State) : (s.blankTick).outputs = s.outputs := rfl
@[simp] theorem State.blankTick_freeCount (s : State) : (s.blankTick).freeCount = s.freeCount + 1 := rfl

@[simp] theorem State.setReg_back (s : State) (r : Fin 18) (w : Word) : (s.setReg r w).back = s.back := rfl
@[simp] theorem State.setReg_front (s : State) (r : Fin 18) (w : Word) : (s.setReg r w).front = s.front := rfl
@[simp] theorem State.setReg_regs (s : State) (r : Fin 18) (w : Word) : (s.setReg r w).regs = s.regs.set r w := rfl
@[simp] theorem State.setReg_pending (s : State) (r : Fin 18) (w : Word) : (s.setReg r w).pending = s.pending := rfl
@[simp] theorem State.setReg_inbox (s : State) (r : Fin 18) (w : Word) : (s.setReg r w).inbox = s.inbox := rfl
@[simp] theorem State.setReg_outputs (s : State) (r : Fin 18) (w : Word) : (s.setReg r w).outputs = s.outputs := rfl
@[simp] theorem State.setReg_freeCount (s : State) (r : Fin 18) (w : Word) : (s.setReg r w).freeCount = s.freeCount := rfl

@[simp] theorem State.setInbox_back (s : State) (xs : List Input) : (s.setInbox xs).back = s.back := rfl
@[simp] theorem State.setInbox_front (s : State) (xs : List Input) : (s.setInbox xs).front = s.front := rfl
@[simp] theorem State.setInbox_regs (s : State) (xs : List Input) : (s.setInbox xs).regs = s.regs := rfl
@[simp] theorem State.setInbox_pending (s : State) (xs : List Input) : (s.setInbox xs).pending = s.pending := rfl
@[simp] theorem State.setInbox_inbox (s : State) (xs : List Input) : (s.setInbox xs).inbox = xs := rfl
@[simp] theorem State.setInbox_outputs (s : State) (xs : List Input) : (s.setInbox xs).outputs = s.outputs := rfl
@[simp] theorem State.setInbox_freeCount (s : State) (xs : List Input) : (s.setInbox xs).freeCount = s.freeCount := rfl

@[simp] theorem State.useFree_back (s : State) : (s.useFree).back = s.back := rfl
@[simp] theorem State.useFree_front (s : State) : (s.useFree).front = s.front := rfl
@[simp] theorem State.useFree_regs (s : State) : (s.useFree).regs = s.regs := rfl
@[simp] theorem State.useFree_pending (s : State) : (s.useFree).pending = s.pending := rfl
@[simp] theorem State.useFree_inbox (s : State) : (s.useFree).inbox = s.inbox := rfl
@[simp] theorem State.useFree_outputs (s : State) : (s.useFree).outputs = s.outputs := rfl
@[simp] theorem State.useFree_freeCount (s : State) : (s.useFree).freeCount = s.freeCount + 1 := rfl

@[simp] theorem State.swapPlanes_back (s : State) : (s.swapPlanes).back = s.back := rfl
@[simp] theorem State.swapPlanes_front (s : State) : (s.swapPlanes).front = s.back := rfl
@[simp] theorem State.swapPlanes_regs (s : State) : (s.swapPlanes).regs = s.regs := rfl
@[simp] theorem State.swapPlanes_pending (s : State) : (s.swapPlanes).pending = raiseFlags s.pending flagBufferSwap := rfl
@[simp] theorem State.swapPlanes_inbox (s : State) : (s.swapPlanes).inbox = s.inbox := rfl
@[simp] theorem State.swapPlanes_outputs (s : State) : (s.swapPlanes).outputs = s.outputs ++ [.swapDone] := rfl
@[simp] theorem State.swapPlanes_freeCount (s : State) : (s.swapPlanes).freeCount = s.freeCount := rfl

@[simp] theorem State.clearPlanes_back (s : State) : (s.clearPlanes).back = [] := rfl
@[simp] theorem State.clearPlanes_front (s : State) : (s.clearPlanes).front = [] := rfl
@[simp] theorem State.clearPlanes_regs (s : State) : (s.clearPlanes).regs = s.regs := rfl
@[simp] theorem State.clearPlanes_pending (s : State) : (s.clearPlanes).pending = s.pending := rfl
@[simp] theorem State.clearPlanes_inbox (s : State) : (s.clearPlanes).inbox = s.inbox := rfl
@[simp] theorem State.clearPlanes_outputs (s : State) : (s.clearPlanes).outputs = s.outputs := rfl
@[simp] theorem State.clearPlanes_freeCount (s : State) : (s.clearPlanes).freeCount = s.freeCount := rfl

@[simp] theorem State.snapshot_back (s : State) : (s.snapshot).back = s.back := rfl
@[simp] theorem State.snapshot_front (s : State) : (s.snapshot).front = s.front := rfl
@[simp] theorem State.snapshot_regs (s : State) : (s.snapshot).regs = s.regs := rfl
@[simp] theorem State.snapshot_pending (s : State) : (s.snapshot).pending = s.pending := rfl
@[simp] theorem State.snapshot_inbox (s : State) : (s.snapshot).inbox = s.inbox := rfl
@[simp] theorem State.snapshot_outputs (s : State) : (s.snapshot).outputs = s.outputs ++ [.frame s.front.bytes] := rfl
@[simp] theorem State.snapshot_freeCount (s : State) : (s.snapshot).freeCount = s.freeCount := rfl

@[simp] theorem State.complete_back (s : State) : (s.complete).back = s.back := rfl
@[simp] theorem State.complete_front (s : State) : (s.complete).front = s.front := rfl
@[simp] theorem State.complete_regs (s : State) : (s.complete).regs = s.regs := rfl
@[simp] theorem State.complete_pending (s : State) : (s.complete).pending = raiseFlags s.pending flagCommandComplete := rfl
@[simp] theorem State.complete_inbox (s : State) : (s.complete).inbox = s.inbox := rfl
@[simp] theorem State.complete_outputs (s : State) : (s.complete).outputs = s.outputs := rfl
@[simp] theorem State.complete_freeCount (s : State) : (s.complete).freeCount = s.freeCount := rfl

@[simp] theorem State.controllerReset_back (s : State) : (s.controllerReset).back = [] := rfl
@[simp] theorem State.controllerReset_front (s : State) : (s.controllerReset).front = [] := rfl
@[simp] theorem State.controllerReset_regs (s : State) : (s.controllerReset).regs = State.reset.regs := rfl
@[simp] theorem State.controllerReset_pending (s : State) : (s.controllerReset).pending = State.reset.pending := rfl
@[simp] theorem State.controllerReset_inbox (s : State) : (s.controllerReset).inbox = s.inbox := rfl
@[simp] theorem State.controllerReset_outputs (s : State) : (s.controllerReset).outputs = s.outputs := rfl
@[simp] theorem State.controllerReset_freeCount (s : State) : (s.controllerReset).freeCount = s.freeCount := rfl

/-! ## What the operations of the state come to, as record updates -/

theorem State.setBack_eq (s : State) (m : Memory) : s.setBack m = { s with back := m } := rfl

theorem State.emit_eq (s : State) (o : Output) : s.emit o = { s with outputs := s.outputs ++ [o] } := rfl

theorem State.complete_eq (s : State) :
    s.complete = { s with pending := raiseFlags s.pending flagCommandComplete } := rfl

theorem State.swapPlanes_eq (s : State) :
    s.swapPlanes = { s with front := s.back, outputs := s.outputs ++ [.swapDone],
                            pending := raiseFlags s.pending flagBufferSwap } := rfl

theorem State.clearPlanes_eq (s : State) : s.clearPlanes = { s with back := [], front := [] } := rfl

theorem State.snapshot_eq (s : State) :
    s.snapshot = { s with outputs := s.outputs ++ [.frame s.front.bytes] } := rfl

/-- What a tick does beside the requests it issues: VERTICAL_BLANK and the free-value counter (log entry 26). -/
theorem State.blankTick_eq (s : State) :
    s.blankTick = { s with pending := tickFlags s.pending (Config.verticalBlank s.freeCount),
                           freeCount := s.freeCount + 1 } := rfl

/-- A tick keeps every pending flag but VERTICAL_BLANK (R78). -/
theorem tickFlags_other (pending : Byte) (blank : Bool) {k : Nat} (h : k ≠ 0) :
    (tickFlags pending blank).getLsbD k = pending.getLsbD k := by
  have clear : flagVerticalBlank.getLsbD k = false := by
    unfold flagVerticalBlank
    simp [h]
  cases blank
  · by_cases h8 : k < 8
    · simp only [tickFlags, Bool.false_eq_true, if_false, BitVec.getLsbD_and, BitVec.getLsbD_not, clear, h8,
        decide_true, Bool.not_false, Bool.and_true]
    · rw [BitVec.getLsbD_of_ge _ _ (by omega), BitVec.getLsbD_of_ge _ _ (by omega)]
  · simp only [tickFlags, if_true, BitVec.getLsbD_or, clear, Bool.or_false]

/-! ## The registers -/

/-- The command register, the parameter registers and the registers of copy-region's sizes are none of those the block
takes no input from (R17, R18). -/
theorem sizeRegister_not_unused (k : Fin 13) : sizeRegister k ∉ ([2, 3, 13, 14, 15] : List (Fin 18)) := by
  revert k
  decide

theorem paramReg_not_unused (k : Fin 4) : paramReg k ∉ ([2, 3, 13, 14, 15] : List (Fin 18)) := by
  revert k
  decide

theorem commandReg_not_unused : commandReg ∉ ([2, 3, 13, 14, 15] : List (Fin 18)) := by decide

theorem State.setReg_get_same (s : State) (r : Fin 18) (w : Word) : (s.setReg r w).regs.get r = w := by
  show (s.regs.set r w)[r.val] = w
  simp

theorem State.setReg_get_other (s : State) (r q : Fin 18) (w : Word) (h : q ≠ r) :
    (s.setReg r w).regs.get q = s.regs.get q := by
  have hv : r.val ≠ q.val := fun e => h (Fin.ext e.symm)
  show (s.regs.set r w)[q.val] = s.regs[q.val]
  simp [hv]

end Sys2Proof.Machine
end

