-- ==== Sys2Proof/Laws/Perform.lean ====
section
/-! SUPPORT. What each input comes to, so that proofs about a step cite these equations. -/

namespace Sys2Proof.Machine

theorem step_idle {s : State} (h : s.inbox = []) : step s = .next s := by simp [step, h]

theorem step_input {s : State} {x : Input} {rest : List Input} (h : s.inbox = x :: rest) :
    step s = perform x (s.setInbox rest) := by simp [step, h]

theorem perform_request (f : Frame) (s : State) :
    perform (.transaction (.request f)) s = exec (decodeRequest f) s := rfl

theorem perform_command (c : Word) (s : State) : perform (.transaction (.command c)) s = performCommand c s := rfl

theorem performCommand_known {c : Word} {i : Instr} (h : decodeCommand c = .ok i) (s : State) :
    performCommand c s = exec i (s.setReg commandReg c) := by simp [performCommand, h]

theorem performCommand_unknown {c : Word} {e : DecodeError} (h : decodeCommand c = .error e) (s : State) :
    performCommand c s = .next (s.setReg commandReg c).complete := by simp [performCommand, h]

theorem perform_draw (d : DrawCall) (s : State) : perform (.draw d) s = .next (s.setBack (s.back.draw d)) := rfl

theorem perform_tick (text : Option TextScreen) (sink : Bool) (s : State) :
    perform (.tick text sink) s = .next (s.tick text sink) := rfl

theorem perform_statusWrite (w : Word) (s : State) :
    perform (.statusWrite w) s = .next (s.clearPending (lowByte w)) := rfl

theorem perform_resetInput (s : State) : perform .resetInput s = exec .reset s := rfl

theorem perform_controllerReset (s : State) : perform .controllerReset s = .next s.controllerReset := rfl

theorem perform_sinkMessage (m : SinkMessage) (s : State) : perform (.sinkMessage m) s = .next s := rfl

/-- A bus read is HOSTRD at its window offset, or nothing. -/
theorem perform_busRead_cases (addr : Word) (s : State) :
    (∃ i, windowOffset addr = some i ∧ perform (.busRead addr) s = exec (.hostrd i) s) ∨
    (windowOffset addr = none ∧ perform (.busRead addr) s = .next s) := by
  cases h : windowOffset addr with
  | some i => exact .inl ⟨i, rfl, by simp [perform, performBusRead, h]⟩
  | none => exact .inr ⟨rfl, by simp [perform, performBusRead, h]⟩

/-- A bus write is HOSTWR at its window offset, or nothing. -/
theorem perform_busWrite_cases (addr w : Word) (s : State) :
    (∃ i, windowOffset addr = some i ∧ perform (.busWrite addr w) s = exec (.hostwr i w) s) ∨
    (windowOffset addr = none ∧ perform (.busWrite addr w) s = .next s) := by
  cases h : windowOffset addr with
  | some i => exact .inl ⟨i, rfl, by simp [perform, performBusWrite, h]⟩
  | none => exact .inr ⟨rfl, by simp [perform, performBusWrite, h]⟩

/-- A register write is a command at the command register and a plain write elsewhere. -/
theorem perform_regWrite_cases (r : Fin 18) (w : Word) (s : State) :
    (r = commandReg ∧ perform (.regWrite r w) s = performCommand w s) ∨
    (r ≠ commandReg ∧ perform (.regWrite r w) s = .next (s.setReg r w)) := by
  by_cases h : r = commandReg
  · exact .inl ⟨h, by simp [perform, performRegWrite, h]⟩
  · exact .inr ⟨h, by simp [perform, performRegWrite, h]⟩

end Sys2Proof.Machine
end

