-- ==== Sys2Proof/Tests/Slice0.lean ====
section
/-! SUPPORT. The model's own tests. Expected words and bytes come from spec/95_test_vectors.md (its L1, L2 and L3
vectors, named in each comment) or are written out by hand from the tables of spec/30_encoding.md R40 and
spec/48_client_traffic.md R66. -/

namespace Sys2Proof.Tests

open Sys2Proof.Machine

/-! ## WellFormed: an operand one past its word is refused, the ends of the range are not (R44) -/

theorem test_wf_refuses_setpix :
    (Instr.setpix 2147483648 0 1).wf = false ∧ (Instr.setpix 0 (-2147483649) 1).wf = false ∧
    (Instr.setpix 0 0 2147483648).wf = false := by decide

theorem test_wf_refuses_getpix :
    (Instr.getpix 2147483648 0).wf = false ∧ (Instr.getpix 0 2147483648).wf = false := by decide

theorem test_wf_refuses_hline :
    (Instr.hline 2147483648 0 0 0).wf = false ∧ (Instr.hline 0 2147483648 0 0).wf = false ∧
    (Instr.hline 0 0 2147483648 0).wf = false ∧ (Instr.hline 0 0 0 2147483648).wf = false := by decide

theorem test_wf_refuses_vline :
    (Instr.vline 2147483648 0 0 0).wf = false ∧ (Instr.vline 0 2147483648 0 0).wf = false ∧
    (Instr.vline 0 0 2147483648 0).wf = false ∧ (Instr.vline 0 0 0 2147483648).wf = false := by decide

theorem test_wf_refuses_fillrect :
    (Instr.fillrect 2147483648 0 0 0 0).wf = false ∧ (Instr.fillrect 0 2147483648 0 0 0).wf = false ∧
    (Instr.fillrect 0 0 2147483648 0 0).wf = false ∧ (Instr.fillrect 0 0 0 2147483648 0).wf = false ∧
    (Instr.fillrect 0 0 0 0 2147483648).wf = false := by decide

theorem test_wf_refuses_scroll :
    (Instr.scrollup 2147483648).wf = false ∧ (Instr.scrolldn (-2147483649)).wf = false := by decide

theorem test_wf_refuses_copyrgn :
    (Instr.copyrgn 2147483648 0 0 0 0 0).wf = false ∧ (Instr.copyrgn 0 2147483648 0 0 0 0).wf = false ∧
    (Instr.copyrgn 0 0 2147483648 0 0 0).wf = false ∧ (Instr.copyrgn 0 0 0 2147483648 0 0).wf = false ∧
    (Instr.copyrgn 0 0 0 0 2147483648 0).wf = false ∧ (Instr.copyrgn 0 0 0 0 0 2147483648).wf = false := by decide

theorem test_wf_refuses_host :
    (Instr.hostrd 2147483648).wf = false ∧ (Instr.hostwr (-2147483649) 0#32).wf = false := by decide

theorem test_wf_accepts_ends :
    (Instr.setpix (-2147483648) 2147483647 0).wf = true := by decide

/-! ## Decode: one word or frame for every row -/

/-- Vectors Q1, Q2 and Q3 of 95: NOP, the reserved value, and ignored header bits. -/
theorem test_decode_nop : decodeWords [0x0, 0, 0, 0, 0, 0, 0] = .ok .nop := by decide

theorem test_decode_reserved : decodeWords [0xF, 0, 0, 0, 0, 0, 0] = .ok .reservedF := by decide

theorem test_decode_header_bits : decodeWords [0xFFFFFFF3, 1, 0, 1, 0, 0, 0] = .ok (.setpix 1 0 1) := by decide

/-- By hand from R40. -/
theorem test_decode_clear : decodeWords [0x1, 9, 9, 9, 9, 9, 9] = .ok .clear := by decide

/-- Program 1 of 95, lines 1 to 5. -/
theorem test_decode_setpix : decodeWords [0x3, 0x64, 0x64, 1, 0, 0, 0] = .ok (.setpix 100 100 1) := by decide

theorem test_decode_hostrd : decodeWords [0xB, 0x1F4C, 0, 0, 0, 0, 0] = .ok (.hostrd 8012) := by decide

theorem test_decode_getpix : decodeWords [0x4, 0x64, 0x65, 0, 0, 0, 0] = .ok (.getpix 100 101) := by decide

theorem test_decode_swap : decodeWords [0x2, 0, 0, 0, 0, 0, 0] = .ok .swap := by decide

/-- Program 2 of 95, lines 1, 2, 5 and 6. -/
theorem test_decode_fillrect :
    decodeWords [0x7, 0xFFFFFFFC, 0xFFFFFFFC, 0xB, 1, 1, 0] = .ok (.fillrect (-4) (-4) 11 1 1) := by decide

theorem test_decode_scrolldn : decodeWords [0x9, 0xA, 0, 0, 0, 0, 0] = .ok (.scrolldn 10) := by decide

theorem test_decode_hline : decodeWords [0x5, 0x14, 0x8, 0xB, 0, 0, 0] = .ok (.hline 20 8 11 0) := by decide

theorem test_decode_scrollup : decodeWords [0x8, 0x5, 0, 0, 0, 0, 0] = .ok (.scrollup 5) := by decide

/-- Program 3 of 95, lines 3 and 5. -/
theorem test_decode_hostwr : decodeWords [0xC, 1, 0x1F0, 0, 0, 0, 0] = .ok (.hostwr 1 0x1F0#32) := by decide

theorem test_decode_snapshot : decodeWords [0xD, 0, 0, 0, 0, 0, 0] = .ok .snapshot := by decide

/-- Program 4 of 95, lines 3, 7 and 11. -/
theorem test_decode_vline : decodeWords [0x6, 0x32, 0x33, 0x44, 1, 0, 0] = .ok (.vline 50 51 68 1) := by decide

theorem test_decode_copyrgn :
    decodeWords [0xA, 0x32, 0x33, 0x258, 0xB4, 0x1E, 0x14] = .ok (.copyrgn 50 51 600 180 30 20) := by decide

theorem test_decode_reset : decodeWords [0xE, 0, 0, 0, 0, 0, 0] = .ok .reset := by decide

/-- A request has seven words (R38). -/
theorem test_decode_wrong_length : decodeWords [0x3, 0x64, 0x64, 1] = .error (.wrongLength 4) := by decide

/-- The command values of R66, in its order. -/
theorem test_decode_commands :
    [0x0, 0x1, 0x2, 0x3, 0x4, 0x5, 0x6, 0x7, 0x8, 0x9, 0xA, 0xB, 0xC, 0xD, 0xE].map decodeCommand =
      [.ok .cmdNop, .ok .cmdClear, .ok .cmdSwap, .ok .cmdSetPixel, .ok .cmdLine, .ok .cmdRectOutline, .ok .cmdRectFill,
       .ok .cmdCircleOutline, .ok .cmdCircleFill, .ok .cmdCopyRegion, .ok .cmdTextWriteChar, .ok .cmdTextSetCursor,
       .ok .cmdTextClear, .ok .cmdTextScrollUp, .ok .cmdTextScrollDown] := by decide

/-- 0x101 and 0xFF are unknown (R66, L1-8). -/
theorem test_decode_unknown_commands :
    decodeCommand 0x101#32 = .error (.unknownCommand 0x101#32) ∧
    decodeCommand 0xFF#32 = .error (.unknownCommand 0xFF#32) := by decide

/-- Vectors S5e and W4 of 95 (hexadecimal operands are words), and R49's RECTWH of L1-5. -/
theorem test_assemble_lines :
    assemble "SETPIX" [0x80000000, 0, 1] = some [.setpix (-2147483648) 0 1] ∧
    assemble "HOSTWR" [5, 0xFFFFFF00] = some [.hostwr 5 0xFFFFFF00#32] ∧
    assemble "RECTWH" [100, 100, 20, 15, 1] = some [.fillrect 100 100 119 114 1] ∧
    assemble "RECTWH" [100, 100, 0, 15, 1] = some [] := by decide

/-- The ends of a literal's range and one past each (log entry 25). -/
theorem test_assemble_rejects_wide_literals :
    assemble "SCROLLUP" [4294967295] = some [.scrollup (-1)] ∧
    assemble "SCROLLUP" [-2147483648] = some [.scrollup (-2147483648)] ∧
    assemble "SCROLLUP" [4294967296] = none ∧ assemble "SCROLLUP" [-2147483649] = none := by decide

/-- A table word of 32 bits that is a command value is a command, every other word a request (log entry 4). -/
theorem test_table_words :
    decodeTableWord 32 0x3 = some .cmdSetPixel ∧ decodeTableWord 8 0x3 = some (.setpix 0 0 0) ∧
    decodeTableWord 32 0xF = some .reservedF ∧ decodeTableWord 32 0xFFFFFFF3 = some (.setpix 0 0 0) ∧
    decodeTableWord 224 0x100000064_00000064_00000003 = some (.setpix 100 100 1) := by decide

/-! ## One step of an instruction on a small state -/

/-- The state after reset with the given planes. -/
def planes (back front : Memory) : State := { State.reset with back := back, front := front }

/-- The state after reset with all-zero planes and every controller register holding `w`. -/
def withRegs (w : Word) : State := { State.reset with regs := Vector.replicate 18 w }

/-- The back plane an instruction leaves. -/
def backAfter (i : Instr) (s : State) : Option Memory :=
  match exec i s with
  | .next t => some t.back
  | _ => none

/-- The front plane an instruction leaves. -/
def frontAfter (i : Instr) (s : State) : Option Memory :=
  match exec i s with
  | .next t => some t.front
  | _ => none

/-- What an instruction puts out after reset. -/
def outputAfter (i : Instr) (s : State) : Option (List Output) :=
  match exec i s with
  | .next t => some t.outputs
  | _ => none

/-- The pending flags an instruction leaves. -/
def pendingAfter (i : Instr) (s : State) : Option Byte :=
  match exec i s with
  | .next t => some t.pending
  | _ => none

/-- L1-8, S4, S5c: the example of R50, the last pixel, and a point that must not wrap to the next row. -/
theorem test_setpix_examples :
    backAfter (.setpix 100 100 1) .reset = some [(8012, 0x08#8)] ∧
    backAfter (.setpix 639 199 1) .reset = some [(15999, 0x01#8)] ∧
    backAfter (.setpix 640 0 1) .reset = some [] := by decide

/-- S7, S8: any non-zero value sets; zero clears and keeps the other bits. -/
theorem test_setpix_values :
    backAfter (.setpix 3 0 (-1)) .reset = some [(0, 0x10#8)] ∧
    backAfter (.setpix 3 0 0) (planes [(0, 0xFF#8)] []) = some [(0, 0xEF#8)] := by decide

/-- G1, G2, G3: outside, the last pixel, and the back plane rather than the front. -/
theorem test_getpix_vectors :
    outputAfter (.getpix 640 0) (planes [(0, 0xFF#8)] []) = some [.response 0#32] ∧
    outputAfter (.getpix 639 199) (planes [(15999, 1#8)] []) = some [.response 1#32] ∧
    outputAfter (.getpix 5 5) (planes [] [(400, 0x04#8)]) = some [.response 0#32] := by decide

/-- H2, H3, H7. -/
theorem test_hline_vectors :
    backAfter (.hline (-5) 3 0 1) .reset = some [(0, 0xF0#8)] ∧
    backAfter (.hline 630 700 10 1) .reset = some [(878, 0x03#8), (879, 0xFF#8)] ∧
    backAfter (.hline 2 4 0 0) (planes [(0, 0xFF#8)] []) = some [(0, 0xC7#8)] := by decide

/-- H5 and the example of R52. -/
theorem test_hline_examples :
    backAfter (.hline 0 10 200 1) .reset = some [] ∧
    backAfter (.hline 5 2 0 1) .reset = some [(0, 0x3C#8)] := by decide

/-- V2, V3 and the example of R53. -/
theorem test_vline_vectors :
    backAfter (.vline 640 0 10 1) .reset = some [] ∧
    backAfter (.vline 9 3 1 1) .reset = some [(81, 0x40#8), (161, 0x40#8), (241, 0x40#8)] ∧
    backAfter (.vline 3 198 205 1) .reset = some [(15840, 0x10#8), (15920, 0x10#8)] := by decide

/-- F2, F5. -/
theorem test_fillrect_vectors :
    backAfter (.fillrect (-10) (-10) 3 1 1) .reset = some [(0, 0xF0#8), (80, 0xF0#8)] ∧
    backAfter (.fillrect 640 0 700 10 1) .reset = some [] := by decide

/-- C1: the front plane stays. -/
theorem test_clear_back_only :
    backAfter .clear (planes [(0, 0x80#8)] [(0, 0x80#8)]) = some [] ∧
    frontAfter .clear (planes [(0, 0x80#8)] [(0, 0x80#8)]) = some [(0, 0x80#8)] := by decide

/-- The example of R56, U2, U3, U5. -/
theorem test_scrollup_vectors :
    backAfter (.scrollup 2) (planes [(400, 0x80#8)] []) = some [(240, 0x80#8)] ∧
    backAfter (.scrollup (-1)) (planes [(400, 0x80#8)] []) = some [(400, 0x80#8)] ∧
    backAfter (.scrollup 199) (planes [(15920, 0x80#8)] []) = some [(0, 0x80#8)] ∧
    backAfter (.scrollup 2147483647) (planes [(15999, 0xFF#8)] []) = some [] := by decide

/-- The example of R57, D1, D2, D3. -/
theorem test_scrolldn_vectors :
    backAfter (.scrolldn 2) (planes [(400, 0x80#8)] []) = some [(560, 0x80#8)] ∧
    backAfter (.scrolldn 199) (planes [(0, 0x80#8)] []) = some [(15920, 0x80#8)] ∧
    backAfter (.scrolldn (-3)) (planes [(0, 0x80#8)] []) = some [(0, 0x80#8)] ∧
    backAfter (.scrolldn 200) (planes [(0, 0x80#8)] []) = some [] := by decide

/-- K2, K3, K4: clipped source, clipped destination, leftward overlap. -/
theorem test_copyrgn_clips :
    backAfter (.copyrgn 636 0 0 0 8 1) (planes [(79, 0xFF#8)] []) = some [(0, 0xF0#8), (79, 0xFF#8)] ∧
    backAfter (.copyrgn 0 0 636 0 8 1) (planes [(0, 0xFF#8)] []) = some [(0, 0xFF#8), (79, 0x0F#8)] ∧
    backAfter (.copyrgn 1 0 0 0 3 1) (planes [(0, 0x40#8)] []) = some [(0, 0x80#8)] := by decide

/-- K5, K7, K9, K10: the smears of the in-place order, and a negative width. -/
theorem test_copyrgn_smears :
    backAfter (.copyrgn 0 0 0 1 1 3) (planes [(0, 0x80#8)] []) =
      some [(0, 0x80#8), (80, 0x80#8), (160, 0x80#8), (240, 0x80#8)] ∧
    backAfter (.copyrgn 0 0 1 0 (-1) 5) (planes [(0, 0x80#8)] []) = some [(0, 0x80#8)] ∧
    backAfter (.copyrgn 0 0 1 1 3 3) (planes [(0, 0x80#8)] []) =
      some [(0, 0x80#8), (80, 0x40#8), (160, 0x20#8), (240, 0x10#8)] ∧
    backAfter (.copyrgn 0 0 1 0 3 1) (planes [(0, 0x80#8)] []) = some [(0, 0xF0#8)] := by decide

/-- The buffered alternative of 93 I1 gives 0xC0 where the in-place order gives 0xF0 (the example of R58). -/
theorem test_copy_policies_differ :
    Memory.copyRegion .buffered [(0, 0x80#8)] 0 0 1 0 3 1 = [(0, 0xC0#8)] ∧
    Memory.copyRegion .inPlace [(0, 0x80#8)] 0 0 1 0 3 1 = [(0, 0xF0#8)] := by decide

/-- R1, R2, R3, R4. -/
theorem test_hostrd_vectors :
    outputAfter (.hostrd 3) (planes [(3, 0x5A#8)] []) = some [.response 0#32] ∧
    outputAfter (.hostrd 3) (planes [] [(3, 0x5A#8)]) = some [.response 0x5A#32] ∧
    outputAfter (.hostrd 16000) (planes [] [(3, 0x5A#8)]) = some [.response 0#32] ∧
    outputAfter (.hostrd (-1)) (planes [] [(3, 0x5A#8)]) = some [.response 0#32] := by decide

/-- W1, W3, W4, W5. -/
theorem test_hostwr_vectors :
    backAfter (.hostwr 15999 1#32) .reset = some [(15999, 0x01#8)] ∧
    backAfter (.hostwr 16000 0xFF#32) .reset = some [] ∧
    backAfter (.hostwr 5 0xFFFFFF00#32) (planes [(5, 0xFF#8)] []) = some [] ∧
    backAfter (.hostwr 0 0x1A5#32) .reset = some [(0, 0xA5#8)] := by decide

/-- P1, P2: the copy, the event, and BUFFER_SWAP (R67). -/
theorem test_swap_copies :
    frontAfter .swap (planes [(0, 0x80#8)] [(3, 0x5A#8)]) = some [(0, 0x80#8)] ∧
    outputAfter .swap (planes [(0, 0x80#8)] []) = some [.swapDone] ∧
    pendingAfter .swap .reset = some 0x08#8 := by decide

/-- N1, N2: the front plane's bytes, not the back plane's. -/
theorem test_snapshot_delivers_front :
    outputAfter .snapshot (planes [(0, 0x80#8)] [(0, 0x81#8)]) =
      some [.frame (Memory.bytes [(0, 0x81#8)])] := rfl

theorem test_snapshot_first_byte : (Memory.bytes [(0, 0x81#8)])[0]? = some 0x81#8 :=
  Memory.bytes_get _ (by decide)

/-- Z1. -/
theorem test_reset_clears_both :
    backAfter .reset (planes [(1, 0xFF#8)] [(0, 0xFF#8)]) = some [] ∧
    frontAfter .reset (planes [(1, 0xFF#8)] [(0, 0xFF#8)]) = some [] := by decide

/-- Q1, Q2. -/
theorem test_nop_and_reserved_change_nothing :
    exec .nop (planes [(0, 0x80#8)] []) = .next (planes [(0, 0x80#8)] []) ∧
    exec .reservedF (planes [(0, 0x80#8)] []) = .next (planes [(0, 0x80#8)] []) := ⟨rfl, rfl⟩

/-- L1-8: set-pixel with parameters (1, 1, 1), and COMMAND_COMPLETE. -/
theorem test_cmd_set_pixel :
    backAfter .cmdSetPixel (withRegs 1#32) = some [(80, 0x40#8)] ∧
    pendingAfter .cmdSetPixel (withRegs 1#32) = some 0x04#8 := by decide

/-- R66: clear and swap through their commands. -/
theorem test_cmd_clear_and_swap :
    backAfter .cmdClear (planes [(0, 0x80#8)] []) = some [] ∧
    frontAfter .cmdSwap (planes [(0, 0x80#8)] []) = some [(0, 0x80#8)] ∧
    pendingAfter .cmdSwap .reset = some 0x0C#8 := by decide

/-- R68, R69 with (x, y, w, h) = (3, 3, 3, 3): nine pixels, and the eight of the perimeter. -/
theorem test_cmd_rectangles :
    backAfter .cmdRectFill (withRegs 3#32) = some [(240, 0x1C#8), (320, 0x1C#8), (400, 0x1C#8)] ∧
    backAfter .cmdRectOutline (withRegs 3#32) = some [(240, 0x1C#8), (320, 0x14#8), (400, 0x1C#8)] := by decide

/-- R66: the text commands and no-op issue no request. -/
theorem test_cmd_quiet :
    [Instr.cmdNop, .cmdTextWriteChar, .cmdTextSetCursor, .cmdTextClear, .cmdTextScrollUp, .cmdTextScrollDown].map
      (fun i => (backAfter i (planes [(0, 0x80#8)] []), pendingAfter i .reset)) =
    List.replicate 6 (some [(0, 0x80#8)], some 0x04#8) := by decide

/-- R71: one glyph row 0x81 with fg 1 and bg 0 at (8, 0), plain and under UNDERLINE. -/
theorem test_render_character :
    Memory.draw [] (.renderCharacter 8 0 ⟨⟨#[0x81#8, 0, 0, 0, 0, 0, 0, 0], rfl⟩, 1, 0, ⟨false, true, false, false⟩⟩) =
      [(1, 0x81#8), (561, 0xFF#8)] := by decide

/-- R72: the cursor inverts the 64 pixels of its cell, here the last one. -/
theorem test_cursor_inverts_cell :
    Memory.invertCell [(15439, 0x0F#8), (15999, 0xFF#8)] 79 24 =
      [(15439, 0xF0#8), (15519, 0xFF#8), (15599, 0xFF#8), (15679, 0xFF#8), (15759, 0xFF#8), (15839, 0xFF#8),
       (15919, 0xFF#8)] := by decide

/-- R78: writing 0x04 clears COMMAND_COMPLETE and keeps BUFFER_SWAP. -/
theorem test_status_write_clears :
    (match perform (.statusWrite 0x04#32) { State.reset with pending := 0x0C#8 } with
      | .next t => some t.pending
      | _ => none) = some 0x08#8 := by decide

/-- R66: 0x101 is unknown and still raises COMMAND_COMPLETE; parameters are written before a command. -/
theorem test_register_writes :
    (match Host.Core.run Sys2Proof.core 4 { State.reset with
        inbox := [.regWrite 9 100#32, .regWrite 10 100#32, .regWrite 11 1#32, .regWrite 8 0x03#32] } with
      | .next t => some (t.back, t.pending)
      | _ => none) = some ([(8012, 0x08#8)], 0x04#8) ∧
    (match perform (.transaction (.command 0x101#32)) State.reset with
      | .next t => some (t.back, t.pending)
      | _ => none) = some ([], 0x04#8) := by decide

/-- A request presented after reset is what the next step runs. -/
theorem test_step_runs_presented_word :
    (match step (State.reset.withFetchWord 224 0x100000064_00000064_00000003) with
      | .next t => some (t.back, t.inbox)
      | _ => none) = some ([(8012, 0x08#8)], []) := by decide

/-! ## Witnesses: states and operands that meet the hypotheses of each statement of the Obligations file -/

theorem test_witness_DecodeOfEncodeIsIdentity :
    (Instr.copyrgn (-2147483648) 2147483647 0 (-1) 30 20).wf = true := by decide

theorem test_witness_DecodedInstructionIsWellFormed :
    decode (.request ⟨0x5#32, 0x14#32, 0x80000000#32, 0xB#32, 0#32, 0#32, 0#32⟩) =
      .ok (.hline 20 (-2147483648) 11 0) := by decide

theorem test_witness_CommandValuesAreExactlyTheEncodings : 0x0E < (0x0F#32 : Word).toNat := by decide

theorem test_witness_ReservedHeaderBitsAreIgnored :
    ∃ f g : Frame, f ≠ g ∧ f.h.extractLsb' 0 4 = g.h.extractLsb' 0 4 ∧
      { f with h := 0#32 } = { g with h := 0#32 } ∧ (0xFFFFFFFF#32).extractLsb' 0 4 = 0xF#4 :=
  ⟨⟨0xFFFFFFF3#32, 1#32, 0#32, 1#32, 0#32, 0#32, 0#32⟩, ⟨0x3#32, 1#32, 0#32, 1#32, 0#32, 0#32, 0#32⟩, by decide⟩

theorem test_witness_UnnamedOperandWordsAreIgnored :
    ∃ f g : Frame, f ≠ g ∧ f.h = g.h ∧
      [f.a0, f.a1, f.a2, f.a3, f.a4, f.a5].take
        ([0, 0, 0, 3, 2, 4, 4, 5, 1, 1, 6, 1, 2, 0, 0, 0].getD (f.h.extractLsb' 0 4).toNat 0) =
      [g.a0, g.a1, g.a2, g.a3, g.a4, g.a5].take
        ([0, 0, 0, 3, 2, 4, 4, 5, 1, 1, 6, 1, 2, 0, 0, 0].getD (f.h.extractLsb' 0 4).toNat 0) :=
  ⟨⟨0xC#32, 5#32, 6#32, 7#32, 0#32, 0#32, 0#32⟩, ⟨0xC#32, 5#32, 6#32, 8#32, 0#32, 0#32, 9#32⟩, by decide⟩

theorem test_witness_BytesAreRowsOfEightPixels :
    (15999 < 16000 ∧ 7 < 8) ∧ InBounds 0 0 ∧ InBounds 639 199 := by decide

/-- A state with pixels in both planes, a delivered frame, pending flags and one more input. -/
def busy (x : Input) : State :=
  { back := [(0, 0xFF#8), (15999, 0x01#8)], front := [(3, 0x5A#8)], regs := Vector.replicate 18 7#32, pending := 0x0C#8,
    inbox := [x, .resetInput], outputs := [.response 1#32, .frame (Memory.bytes [])], freeCount := 5 }

theorem busy_inv (x : Input) : (busy x).Inv :=
  ⟨rfl, rfl, by simp [busy, Output.wf, Memory.bytes_length], by
    show 0x0C#8 &&& flagHorizontalBlank = 0#8
    decide⟩

theorem test_witness_StepKeepsInvariant :
    (busy (.transaction (.command 0x02#32))).Inv ∧ ∃ t, step (busy (.transaction (.command 0x02#32))) = .next t :=
  ⟨busy_inv _, _, rfl⟩

theorem test_witness_StepRunsDecodedInstruction :
    (∃ f rest i, (busy (.transaction (.request ⟨0x2#32, 0#32, 0#32, 0#32, 0#32, 0#32, 0#32⟩))).inbox =
      .transaction (.request f) :: rest ∧ decode (.request f) = .ok i ∧ i.wf = true) ∧
    (∃ c rest i, (busy (.transaction (.command 0x0E#32))).inbox = .transaction (.command c) :: rest ∧
      decode (.command c) = .ok i ∧ i.wf = true) :=
  ⟨⟨_, _, _, rfl, rfl, rfl⟩, ⟨_, _, _, rfl, rfl, rfl⟩⟩

theorem test_witness_PseudoOperationsExpand :
    operandFits 2147483647 = true ∧ operandFits (-2147483648) = true := by decide

theorem test_witness_IdleStepChangesNothing : State.reset.inbox = [] := rfl

theorem test_witness_PlaneWritersAreOnlyTheListedOnes :
    (∃ t, exec .swap (busy .resetInput) = .next t ∧ t.front ≠ (busy .resetInput).front) ∧
    (∃ t, exec (.getpix 639 199) (busy .resetInput) = .next t) ∧
    Instr.nop ∈ [Instr.snapshot, .nop, .reservedF, .swap, .cmdNop, .cmdSwap, .cmdTextWriteChar, .cmdTextSetCursor,
        .cmdTextClear, .cmdTextScrollUp, .cmdTextScrollDown] :=
  ⟨⟨_, rfl, by decide⟩, ⟨_, rfl⟩, by decide⟩

theorem test_witness_FrontChangesOnlyAtSwapOrReset :
    ∃ t, (busy .resetInput).inbox = [.resetInput, .resetInput] ∧ step (busy .resetInput) = .next t ∧
      t.front ≠ (busy .resetInput).front :=
  ⟨_, rfl, rfl, by decide⟩

theorem test_witness_DeliveredOutputsNeverChange : ∃ t, step (busy (.tick none true)) = .next t := ⟨_, rfl⟩

/-- The header hypothesis of each per-operation statement, for its `op`. -/
theorem test_witness_headers :
    (List.range 16).map (fun k => (BitVec.ofNat 32 (0xABCDEF0 * 16 + k)).extractLsb' 0 4) =
      [0x0#4, 0x1#4, 0x2#4, 0x3#4, 0x4#4, 0x5#4, 0x6#4, 0x7#4, 0x8#4, 0x9#4, 0xA#4, 0xB#4, 0xC#4, 0xD#4, 0xE#4, 0xF#4] := by
  decide

/-- The hypotheses on the plane and the point of SetpixWritesOneClippedPixel, inside and outside. -/
theorem test_witness_SetpixWritesOneClippedPixel :
    (busy .resetInput).back.wf = true ∧ InBounds 639 199 ∧ ¬ InBounds 640 199 ∧ ¬ InBounds 639 200 ∧ ¬ InBounds (-1) 0 ∧
    ¬ InBounds 0 (-1) := by decide

theorem test_witness_GetpixSeesSetpix :
    (busy .resetInput).back.wf = true ∧ InBounds 0 0 ∧ ¬ ((639 : Int) = 0 ∧ (199 : Int) = 0) ∧
    exec (.getpix 639 199) (busy .resetInput) =
      .next { busy .resetInput with outputs := (busy .resetInput).outputs ++ [.response 1#32] } :=
  ⟨by decide, by decide, by decide, rfl⟩

/-- The run hypotheses of HlineSetsClippedRun, VlineSetsClippedRun and FillrectSetsClippedRectangle: a byte with no named
point. -/
theorem test_witness_HlineSetsClippedRun :
    (busy .resetInput).back.wf = true ∧ InBounds 639 199 ∧
    ∀ a : Int, InBounds a 0 → min 5 2 ≤ a → a ≤ max 5 2 → ((1 : Nat) : Int) ≠ 80 * 0 + a / 8 := by
  refine ⟨by decide, by decide, fun a _ _ h => ?_⟩
  omega

theorem test_witness_VlineSetsClippedRun :
    (busy .resetInput).back.wf = true ∧
    ∀ b : Int, InBounds 3 b → min 198 205 ≤ b → b ≤ max 198 205 → ((0 : Nat) : Int) ≠ 80 * b + 3 / 8 := by
  refine ⟨by decide, fun b _ h _ => ?_⟩
  omega

theorem test_witness_FillrectSetsClippedRectangle :
    (busy .resetInput).back.wf = true ∧
    ∀ a b : Int, InBounds a b → min 8 15 ≤ a → a ≤ max 8 15 → min 1 1 ≤ b → b ≤ max 1 1 →
      ((80 : Nat) : Int) ≠ 80 * b + a / 8 := by
  refine ⟨by decide, fun a b _ h _ _ _ => ?_⟩
  omega

theorem test_witness_HlineIsSetpixInAnyOrder :
    (busy .resetInput).back.wf = true ∧
    ∀ a : Int, a ∈ ([640, 639, 641, 639] : List Int) ↔ min 641 639 ≤ a ∧ a ≤ max 641 639 := by
  refine ⟨by decide, fun a => ?_⟩
  simp only [List.mem_cons, List.not_mem_nil, or_false]
  omega

theorem test_witness_FillrectIsHlinesInAnyOrder :
    (busy .resetInput).back.wf = true ∧ ∀ b : Int, b ∈ ([0, -1] : List Int) ↔ min (-1) 0 ≤ b ∧ b ≤ max (-1) 0 := by
  refine ⟨by decide, fun b => ?_⟩
  simp only [List.mem_cons, List.not_mem_nil, or_false]
  omega

theorem test_witness_WritesAreIdempotent :
    (busy .resetInput).Inv ∧ ∃ k w, Instr.hostwr 15999 0#32 = .hostwr k w := ⟨busy_inv _, _, _, rfl⟩

/-- The clauses of the scroll statements, at the values where they meet. -/
theorem test_witness_Scrolls :
    (1 : Int) ≤ 1 ∧ (1 : Int) ≤ 200 ∧ (0 : Int) ≤ 0 ∧ 15999 < 16000 ∧ InBounds 639 199 := by decide

theorem test_witness_CopyrgnOfDisjointRegionsMovesPixels :
    (busy .resetInput).back.wf = true ∧ ((0 : Int) + 8 ≤ 8) ∧ InBounds 8 0 ∧
    ∀ a b : Int, InBounds a b → 8 ≤ a → a < 8 + 8 → 0 ≤ b → b < 0 + 1 → ((0 : Nat) : Int) ≠ 80 * b + a / 8 := by
  refine ⟨by decide, by decide, by decide, fun a b _ h _ _ _ => ?_⟩
  omega

theorem test_witness_CopyrgnOntoItselfOrEmptyChangesNothing :
    (busy .resetInput).back.wf = true ∧ ((5 : Int) = 5 ∧ (6 : Int) = 6) ∧ (0 : Int) ≤ 0 := by decide

theorem test_witness_HostwrReplacesBackByte :
    (busy .resetInput).back.wf = true ∧ ((0 : Int) ≤ 15999 ∧ (15999 : Int) ≤ 15999) ∧
    ¬ ((0 : Int) ≤ 16000 ∧ (16000 : Int) ≤ 15999) ∧ ¬ ((0 : Int) ≤ -1 ∧ (-1 : Int) ≤ 15999) := by decide

theorem test_witness_WindowReadAfterWriteNeedsSwap :
    (busy .resetInput).back.wf = true ∧ (0 : Int) ≤ 0 ∧ (0 : Int) ≤ 15999 := by decide

theorem test_witness_SnapshotDeliversFrontBytes : 15999 < 16000 := by decide

theorem test_witness_QuietCommandsOnlyComplete :
    Instr.cmdTextScrollDown ∈
      [Instr.cmdNop, .cmdTextWriteChar, .cmdTextSetCursor, .cmdTextClear, .cmdTextScrollUp, .cmdTextScrollDown] := by
  decide

theorem test_witness_RectOutlineDrawsThePerimeter :
    (busy .resetInput).back.wf = true ∧ (1 : Int) ≤ 1 ∧ (1 : Int) ≤ 3 ∧ InBounds 0 0 := by decide

theorem test_witness_UnknownCommandOnlyCompletes : 0x0E < (0x101#32 : Word).toNat := by decide

theorem test_witness_RegisterWritesHoldOrCommand :
    (9 : Fin 18) ≠ 8 ∧ (10 : Fin 18) ≠ 9 ∧ 7 < 8 := by decide

theorem test_witness_RenderCharacterDrawsGlyph :
    (busy .resetInput).back.wf = true ∧ InBounds (632 + ((7 : Fin 8).val : Int)) (192 + ((7 : Fin 8).val : Int)) ∧
    InBounds 631 191 ∧ ¬ ((632 : Int) ≤ 631 ∧ (631 : Int) < 632 + 8 ∧ (192 : Int) ≤ 191 ∧ (191 : Int) < 192 + 8) := by
  decide

theorem test_witness_TextTickPaintsEveryCell : (busy .resetInput).back.wf = true := by decide

theorem test_witness_UnusedRegistersReachNothing :
    (2 : Fin 18) ∈ ([2, 3, 13, 14, 15] : List (Fin 18)) ∧ (15 : Fin 18) ∈ ([2, 3, 13, 14, 15] : List (Fin 18)) := by
  decide

/-- Bits other than VERTICAL_BLANK, the hypothesis of the two tick statements. -/
theorem test_witness_GraphicsTickOnlySnapshots : (1 : Nat) ≠ 0 ∧ (7 : Nat) ≠ 0 := by decide

theorem test_witness_TextTickForgetsBackPlane :
    Memory.wf [(0, 0xFF#8)] = true ∧ Memory.wf [] = true := by decide

/-- FB_WINDOW_BASE itself is window offset 0, and the address below it is no window address. -/
theorem test_witness_WindowAccessIsHostOperation :
    (0 < 16000 ∧ Config.fbWindowBase.toNat = Config.fbWindowBase.toNat + 0) ∧
    ∀ i : Nat, i < 16000 → (Config.fbWindowBase - 1#32).toNat ≠ Config.fbWindowBase.toNat + i := by
  refine ⟨by omega, fun i hi => ?_⟩
  have lt := Config.fbWindowBase.isLt
  rw [BitVec.toNat_sub]
  simp only [BitVec.toNat_ofNat]
  omega

end Sys2Proof.Tests
end

section
/-! PROOFS of the statements about the state: what an input can do to it, as a chain of elementary updates; the
machine's invariant; which inputs write which plane; the registers the block takes no input from. -/

namespace Sys2Proof.Machine

/-! ## What an input can do to the state -/

/-- One elementary update of the state. Each carries what the rules promise of it: a canonical back plane stays
canonical (R10), an output has its rule's form (R42, R62), HORIZONTAL_BLANK is not raised (R78). -/
inductive Update (s : State) : State → Prop
  | back (m : Memory) (wf : s.back.wf = true → m.wf = true) : Update s (s.setBack m)
  | publish : Update s (s.setFront s.back)
  | clearPlanes : Update s s.clearPlanes
  | emit (o : Output) (wf : o.wf = true) : Update s (s.emit o)
  | raise (flags : Byte) (noBlank : flags &&& flagHorizontalBlank = 0#8) : Update s (s.raise flags)
  | clearPending (ones : Byte) : Update s (s.clearPending ones)
  | setReg (r : Fin 18) (w : Word) : Update s (s.setReg r w)
  | setInbox (rest : List Input) : Update s (s.setInbox rest)
  | useFree : Update s s.useFree
  | controllerReset : Update s s.controllerReset

/-- A chain of elementary updates, one after the other. -/
def Updates (s t : State) : Prop := Relation.ReflTransGen Update s t

theorem Updates.refl (s : State) : Updates s s := Relation.ReflTransGen.refl

theorem Updates.of_update {s t : State} (h : Update s t) : Updates s t := Relation.ReflTransGen.single h

theorem Updates.trans {s t u : State} (h : Updates s t) (h' : Updates t u) : Updates s u :=
  Relation.ReflTransGen.trans h h'

theorem Updates.tail {s t u : State} (h : Updates s t) (h' : Update t u) : Updates s u :=
  Relation.ReflTransGen.tail h h'

/-- A property that every elementary update keeps is kept by a chain of them. -/
theorem Updates.keeps {P : State → Prop} (keep : ∀ {s t : State}, Update s t → P s → P t) {s t : State}
    (h : Updates s t) (hs : P s) : P t := by
  induction h with
  | refl => exact hs
  | tail _ last ih => exact keep last ih

/-- New contents of the back plane, canonical when the old ones are. -/
theorem updates_setBack {s : State} {m : Memory} (wf : s.back.wf = true → m.wf = true) : Updates s (s.setBack m) :=
  .of_update (.back m wf)

theorem updates_response (s : State) (w : Word) : Updates s (s.emit (.response w)) := .of_update (.emit _ rfl)

/-- A frame of a plane's bytes has 16,000 of them (R62). -/
theorem Output.frame_bytes_wf (m : Memory) : (Output.frame m.bytes).wf = true := by
  simp only [Output.wf, Memory.bytes_length, decide_true]

theorem updates_snapshot (s : State) : Updates s s.snapshot := .of_update (.emit _ (Output.frame_bytes_wf s.front))

theorem updates_swapPlanes (s : State) : Updates s s.swapPlanes :=
  ((Updates.of_update .publish).tail (.emit .swapDone rfl)).tail (.raise flagBufferSwap (by decide))

/-- A command's chain of updates ends with COMMAND_COMPLETE (R67). -/
theorem Updates.complete {s t : State} (h : Updates s t) : Updates s t.complete :=
  h.tail (.raise flagCommandComplete (by decide))

theorem updates_rasterize (s : State) (k : RasterCommand) : Updates s (s.rasterize k) :=
  (updates_setBack fun h => Memory.plotRequests_wf h _).tail .useFree

/-- A tick raises or clears VERTICAL_BLANK and no other flag (R78). -/
theorem updates_setBlank (s : State) (blank : Bool) : Updates s (s.setBlank blank) := by
  cases blank with
  | true => exact .of_update (.raise flagVerticalBlank (by decide))
  | false => exact .of_update (.clearPending flagVerticalBlank)

theorem updates_tick (s : State) (text : Option TextScreen) (sinkAttached : Bool) :
    Updates s (s.tick text sinkAttached) := by
  have ticked : Updates s s.blankTick := (updates_setBlank s _).tail .useFree
  have rendered : ∀ {t : State}, Updates s t → Updates s (if sinkAttached then t.snapshot else t) := by
    intro t ht
    cases sinkAttached with
    | true => exact ht.trans (updates_snapshot t)
    | false => exact ht
  cases text with
  | none => exact rendered ticked
  | some screen => exact rendered (ticked.trans (updates_setBack fun h => Memory.render_wf h screen))

/-- Every instruction goes on to a state, by elementary updates (R76). -/
theorem exec_updates (i : Instr) (s : State) : ∃ t, exec i s = .next t ∧ Updates s t := by
  cases i with
  | nop | reservedF => exact ⟨_, rfl, .refl s⟩
  | clear => exact ⟨_, rfl, updates_setBack fun _ => Memory.wf_nil⟩
  | swap => exact ⟨_, rfl, updates_swapPlanes s⟩
  | setpix x y v => exact ⟨_, rfl, updates_setBack fun h => Memory.setPixel_wf h x y _⟩
  | getpix x y => exact ⟨_, rfl, updates_response s _⟩
  | hline x1 x2 y v => exact ⟨_, rfl, updates_setBack fun h => Memory.hline_wf h x1 x2 y _⟩
  | vline x y1 y2 v => exact ⟨_, rfl, updates_setBack fun h => Memory.vline_wf h x y1 y2 _⟩
  | fillrect x1 y1 x2 y2 v => exact ⟨_, rfl, updates_setBack fun h => Memory.fillRect_wf h x1 y1 x2 y2 _⟩
  | scrollup n => exact ⟨_, rfl, updates_setBack fun h => Memory.scrollUp_wf h n⟩
  | scrolldn n => exact ⟨_, rfl, updates_setBack fun h => Memory.scrollDown_wf h n⟩
  | copyrgn sx sy dx dy w ht => exact ⟨_, rfl, updates_setBack fun h => Memory.copyRegion_wf h _ sx sy dx dy w ht⟩
  | hostrd k => exact ⟨_, rfl, updates_response s _⟩
  | hostwr k w => exact ⟨_, rfl, updates_setBack fun h => Memory.windowWrite_wf h k _⟩
  | snapshot => exact ⟨_, rfl, updates_snapshot s⟩
  | reset => exact ⟨_, rfl, .of_update .clearPlanes⟩
  | cmdNop | cmdTextWriteChar | cmdTextSetCursor | cmdTextClear | cmdTextScrollUp | cmdTextScrollDown =>
    exact ⟨_, rfl, (Updates.refl s).complete⟩
  | cmdClear => exact ⟨_, rfl, (updates_setBack fun _ => Memory.wf_nil).complete⟩
  | cmdSwap => exact ⟨_, rfl, (updates_swapPlanes s).complete⟩
  | cmdSetPixel => exact ⟨_, rfl, (updates_setBack fun h => Memory.setPixel_wf h _ _ _).complete⟩
  | cmdLine | cmdCircleOutline | cmdCircleFill => exact ⟨_, rfl, (updates_rasterize s _).complete⟩
  | cmdRectOutline => exact ⟨_, rfl, (updates_setBack fun h => Memory.drawRectangle_wf h _ _ _ _ _).complete⟩
  | cmdRectFill => exact ⟨_, rfl, (updates_setBack fun h => Memory.fillRectangle_wf h _ _ _ _ _).complete⟩
  | cmdCopyRegion => exact ⟨_, rfl, (updates_setBack fun h => Memory.copyRegion_wf h _ _ _ _ _ _ _).complete⟩

theorem performCommand_updates (c : Word) (s : State) : ∃ t, performCommand c s = .next t ∧ Updates s t := by
  have held : Updates s (s.setReg commandReg c) := .of_update (.setReg commandReg c)
  cases hc : decodeCommand c with
  | ok i =>
    obtain ⟨t, ht, hu⟩ := exec_updates i (s.setReg commandReg c)
    exact ⟨t, (performCommand_known hc s).trans ht, held.trans hu⟩
  | error e => exact ⟨_, performCommand_unknown hc s, held.complete⟩

/-- A bus read runs one instruction, the same from every state: HOSTRD, or NOP outside the window (R30, R73). -/
theorem perform_busRead_runs_instr (addr : Word) :
    ∃ i : Instr, (i = .nop ∨ ∃ k, i = .hostrd k) ∧ ∀ s, perform (.busRead addr) s = exec i s := by
  cases h : windowOffset addr with
  | some k => exact ⟨.hostrd k, .inr ⟨k, rfl⟩, fun s => by simp [perform, performBusRead, h]⟩
  | none => exact ⟨.nop, .inl rfl, fun s => by simp [perform, performBusRead, h, exec, execNop]⟩

/-- A bus write runs one instruction, the same from every state: HOSTWR, or NOP outside the window (R30, R73). -/
theorem perform_busWrite_runs_instr (addr w : Word) :
    ∃ i : Instr, (i = .nop ∨ ∃ k, i = .hostwr k w) ∧ ∀ s, perform (.busWrite addr w) s = exec i s := by
  cases h : windowOffset addr with
  | some k => exact ⟨.hostwr k w, .inr ⟨k, rfl⟩, fun s => by simp [perform, performBusWrite, h]⟩
  | none => exact ⟨.nop, .inl rfl, fun s => by simp [perform, performBusWrite, h, exec, execNop]⟩

/-- Every input goes on to a state, by elementary updates (R76). -/
theorem perform_updates (x : Input) (s : State) : ∃ t, perform x s = .next t ∧ Updates s t := by
  cases x with
  | transaction t =>
    cases t with
    | request f => exact exec_updates (decodeRequest f) s
    | command c => exact performCommand_updates c s
  | busRead addr =>
    obtain ⟨i, -, runs⟩ := perform_busRead_runs_instr addr
    rw [runs]
    exact exec_updates i s
  | busWrite addr w =>
    obtain ⟨i, -, runs⟩ := perform_busWrite_runs_instr addr w
    rw [runs]
    exact exec_updates i s
  | regWrite r w =>
    rcases perform_regWrite_cases r w s with ⟨-, isCommand⟩ | ⟨-, isWrite⟩
    · rw [isCommand]
      exact performCommand_updates w s
    · exact ⟨_, isWrite, .of_update (.setReg r w)⟩
  | statusWrite w => exact ⟨_, perform_statusWrite w s, .of_update (.clearPending _)⟩
  | draw d => exact ⟨_, perform_draw d s, updates_setBack fun h => Memory.draw_wf h d⟩
  | tick text sinkAttached => exact ⟨_, perform_tick text sinkAttached s, updates_tick s text sinkAttached⟩
  | resetInput => exact exec_updates .reset s
  | controllerReset => exact ⟨_, perform_controllerReset s, .of_update .controllerReset⟩
  | sinkMessage m => exact ⟨_, perform_sinkMessage m s, .refl s⟩

/-- Every step goes on to a state, by elementary updates (R76, R84). -/
theorem step_updates (s : State) : ∃ t, step s = .next t ∧ Updates s t := by
  cases h : s.inbox with
  | nil => exact ⟨s, step_idle h, .refl s⟩
  | cons x rest =>
    obtain ⟨t, ht, hu⟩ := perform_updates x (s.setInbox rest)
    exact ⟨t, (step_input h).trans ht, (Updates.of_update (.setInbox rest)).trans hu⟩

/-! ## The invariant -/

theorem raiseFlags_noHorizontalBlank {pending flags : Byte} (h : pending &&& flagHorizontalBlank = 0#8)
    (hf : flags &&& flagHorizontalBlank = 0#8) : raiseFlags pending flags &&& flagHorizontalBlank = 0#8 := by
  rw [raiseFlags, BitVec.and_or_distrib_right, h, hf, BitVec.or_zero]

theorem clearFlags_noHorizontalBlank {pending : Byte} (h : pending &&& flagHorizontalBlank = 0#8) (ones : Byte) :
    clearFlags pending ones &&& flagHorizontalBlank = 0#8 := by
  rw [clearFlags, BitVec.and_assoc, BitVec.and_comm (~~~ones), ← BitVec.and_assoc, h, BitVec.zero_and]

theorem State.reset_inv : State.reset.Inv where
  back := rfl
  front := rfl
  outputs := fun _ h => absurd h List.not_mem_nil
  noHorizontalBlank := by decide

/-- Every elementary update keeps the invariant. -/
theorem Update.keeps_inv {s t : State} (h : Update s t) (hs : s.Inv) : t.Inv := by
  cases h with
  | back m wf => exact { hs with back := wf hs.back }
  | publish => exact { hs with front := hs.back }
  | clearPlanes => exact { hs with back := Memory.wf_nil, front := Memory.wf_nil }
  | emit o wf =>
    refine { hs with outputs := fun p hp => ?_ }
    rcases List.mem_append.1 hp with old | new
    · exact hs.outputs p old
    · exact List.mem_singleton.1 new ▸ wf
  | raise flags noBlank =>
    exact { hs with noHorizontalBlank := raiseFlags_noHorizontalBlank hs.noHorizontalBlank noBlank }
  | clearPending ones =>
    exact { hs with noHorizontalBlank := clearFlags_noHorizontalBlank hs.noHorizontalBlank ones }
  | setReg r w => exact { hs with }
  | setInbox rest => exact { hs with }
  | useFree => exact { hs with }
  | controllerReset =>
    exact { hs with
      back := Memory.wf_nil, front := Memory.wf_nil, noHorizontalBlank := State.reset_inv.noHorizontalBlank }

/-- Settles O11: a step is a chain of elementary updates, each of which keeps the invariant. -/
theorem stepKeepsInvariant : Obligations.StepKeepsInvariant := by
  intro s t hs ht
  obtain ⟨t', ht', updates⟩ := step_updates s
  obtain rfl : t' = t := Host.Outcome.next.inj (ht'.symm.trans ht)
  exact updates.keeps Update.keeps_inv hs

/-- Settles O10. -/
theorem resetStateIsZeroAndWellFormed : Obligations.ResetStateIsZeroAndWellFormed :=
  ⟨State.reset_inv, fun i => ⟨Memory.read_nil i, Memory.read_nil i⟩⟩

/-- Settles O12, by the equations of a step and of a command. -/
theorem stepRunsDecodedInstruction : Obligations.StepRunsDecodedInstruction := by
  refine ⟨fun s f rest i head decoded _ => ?_, fun s c rest i head decoded _ => ?_⟩
  · obtain rfl : decodeRequest f = i := Except.ok.inj decoded
    exact (step_input head).trans (perform_request f _)
  · exact (step_input head).trans (performCommand_known decoded _)

/-! ## Which inputs write which plane -/

/-- Of the instructions only SWAP, RESET and the swap command write the front plane (R12). -/
theorem exec_front_writer {i : Instr} {s t : State} (h : exec i s = .next t) (changed : t.front ≠ s.front) :
    i = .swap ∨ i = .reset ∨ i = .cmdSwap := by
  cases i with
  | swap => exact .inl rfl
  | reset => exact .inr (.inl rfl)
  | cmdSwap => exact .inr (.inr rfl)
  | _ =>
    obtain rfl := Host.Outcome.next.inj h
    exact absurd rfl changed

/-- Settles O15, by cases over the instructions. -/
theorem planeWritersAreOnlyTheListedOnes : Obligations.PlaneWritersAreOnlyTheListedOnes := by
  refine fun i s t h => ⟨exec_front_writer h, fun listed => ?_⟩
  simp only [List.mem_cons, List.not_mem_nil, or_false] at listed
  rcases listed with ⟨x, y, rfl⟩ | ⟨k, rfl⟩ | rfl | rfl | rfl | rfl | rfl | rfl | rfl | rfl | rfl | rfl | rfl
  all_goals
    obtain rfl := Host.Outcome.next.inj h
    rfl

/-- No request decodes to a command (R40). -/
theorem decodeRequest_ne_cmdSwap (f : Frame) : decodeRequest f ≠ .cmdSwap := by
  unfold decodeRequest
  split <;> exact nofun

/-- Of the command values only 0x02 decodes to an instruction that writes the front plane (R66). -/
theorem decodeCommand_front_writer {c : Word} {i : Instr} (h : decodeCommand c = .ok i)
    (writer : i = .swap ∨ i = .reset ∨ i = .cmdSwap) : c = 0x02#32 := by
  unfold decodeCommand at h
  split at h
  case h_3 value => exact BitVec.eq_of_toNat_eq value
  case h_16 => exact nomatch h
  all_goals
    cases h
    simp at writer

theorem performCommand_front_writer {c : Word} {s t : State} (h : performCommand c s = .next t)
    (changed : t.front ≠ s.front) : c = 0x02#32 := by
  cases hc : decodeCommand c with
  | ok i =>
    rw [performCommand_known hc] at h
    exact decodeCommand_front_writer hc (exec_front_writer h changed)
  | error e =>
    rw [performCommand_unknown hc] at h
    obtain rfl := Host.Outcome.next.inj h
    exact absurd rfl changed

/-- A tick issues no SWAP and no RESET (R72, R92). -/
theorem State.tick_front (s : State) (text : Option TextScreen) (sinkAttached : Bool) :
    (s.tick text sinkAttached).front = s.front := by
  cases text <;> cases sinkAttached <;> rfl

/-- Of the inputs only these write the front plane (R12, R13). -/
theorem perform_front_writer {x : Input} {s t : State} (h : perform x s = .next t) (changed : t.front ≠ s.front) :
    (∃ f : Frame, x = .transaction (.request f) ∧ (decodeRequest f = .swap ∨ decodeRequest f = .reset)) ∨
    x = .transaction (.command 0x02#32) ∨ x = .regWrite 8 0x02#32 ∨ x = .resetInput ∨ x = .controllerReset := by
  cases x with
  | transaction tr =>
    cases tr with
    | request f =>
      have writer := exec_front_writer h changed
      exact .inl ⟨f, rfl, by simpa only [decodeRequest_ne_cmdSwap, or_false] using writer⟩
    | command c => exact .inr (.inl (by rw [performCommand_front_writer h changed]))
  | busRead addr =>
    obtain ⟨i, isRead, runs⟩ := perform_busRead_runs_instr addr
    have writer := exec_front_writer ((runs s).symm.trans h) changed
    rcases isRead with rfl | ⟨k, rfl⟩ <;> simp at writer
  | busWrite addr w =>
    obtain ⟨i, isWrite, runs⟩ := perform_busWrite_runs_instr addr w
    have writer := exec_front_writer ((runs s).symm.trans h) changed
    rcases isWrite with rfl | ⟨k, rfl⟩ <;> simp at writer
  | regWrite r w =>
    rcases perform_regWrite_cases r w s with ⟨rfl, isCommand⟩ | ⟨-, isWrite⟩
    · rw [performCommand_front_writer (isCommand.symm.trans h) changed]
      exact .inr (.inr (.inl rfl))
    · obtain rfl := Host.Outcome.next.inj (isWrite.symm.trans h)
      exact absurd rfl changed
  | resetInput => exact .inr (.inr (.inr (.inl rfl)))
  | controllerReset => exact .inr (.inr (.inr (.inr rfl)))
  | tick text sinkAttached =>
    obtain rfl := Host.Outcome.next.inj h
    exact absurd (State.tick_front s text sinkAttached) changed
  | statusWrite | draw | sinkMessage =>
    obtain rfl := Host.Outcome.next.inj h
    exact absurd rfl changed

/-- Settles O16: taking the input off the stream leaves the planes alone, and performing it is
`perform_front_writer`. -/
theorem frontChangesOnlyAtSwapOrReset : Obligations.FrontChangesOnlyAtSwapOrReset := by
  intro s t x rest head ht changed
  rw [step_input head] at ht
  exact perform_front_writer ht changed

/-! ## The registers the block takes no input from (R17, R18) -/

theorem State.setReg_comm (s : State) {r q : Fin 18} (ne : r ≠ q) (v w : Word) :
    (s.setReg r v).setReg q w = (s.setReg q w).setReg r v := by
  simp only [State.setReg, Vector.set_comm v w (Fin.val_ne_of_ne ne)]

theorem State.tick_setReg (s : State) (r : Fin 18) (w : Word) (text : Option TextScreen) (sinkAttached : Bool) :
    (s.setReg r w).tick text sinkAttached = (s.tick text sinkAttached).setReg r w := by
  cases text <;> cases sinkAttached <;> rfl

section
variable {r : Fin 18} (unused : r ∈ ([2, 3, 13, 14, 15] : List (Fin 18)))
include unused

theorem State.param_setReg_unused (s : State) (w : Word) (k : Fin 4) : (s.setReg r w).param k = s.param k :=
  congrArg val (State.setReg_get_other s r _ w fun e => paramReg_not_unused k (e ▸ unused))

theorem State.sizeRegister_setReg_unused (s : State) (w : Word) (k : Fin 13) :
    (s.setReg r w).regVal (sizeRegister k) = s.regVal (sizeRegister k) :=
  congrArg val (State.setReg_get_other s r _ w fun e => sizeRegister_not_unused k (e ▸ unused))

theorem State.rasterize_setReg_unused (s : State) (w : Word) (k : RasterCommand) :
    (s.setReg r w).rasterize k = (s.rasterize k).setReg r w := by
  have kept (j : Fin 4) : (s.setReg r w).regs.get (paramReg j) = s.regs.get (paramReg j) :=
    State.setReg_get_other s r _ w fun e => paramReg_not_unused j (e ▸ unused)
  simp only [State.rasterize, kept]
  rfl

/-- An instruction does the same whatever an unused register holds, and leaves that register alone. -/
theorem exec_setReg_unused (i : Instr) (s : State) (w : Word) :
    ∃ t, exec i s = .next t ∧ exec i (s.setReg r w) = .next (t.setReg r w) := by
  cases i with
  | cmdSetPixel | cmdRectOutline | cmdRectFill | cmdCopyRegion =>
    refine ⟨_, rfl, ?_⟩
    simp only [exec, execCmdSetPixel, execCmdRectOutline, execCmdRectFill, execCmdCopyRegion,
      State.param_setReg_unused unused, State.sizeRegister_setReg_unused unused]
    rfl
  | cmdLine | cmdCircleOutline | cmdCircleFill =>
    refine ⟨_, rfl, ?_⟩
    show Host.Outcome.next ((s.setReg r w).rasterize _).complete = _
    rw [State.rasterize_setReg_unused unused]
    rfl
  | _ => exact ⟨_, rfl, rfl⟩

theorem performCommand_setReg_unused (c : Word) (s : State) (w : Word) :
    ∃ t, performCommand c s = .next t ∧ performCommand c (s.setReg r w) = .next (t.setReg r w) := by
  have comm := State.setReg_comm s (fun e => commandReg_not_unused (e ▸ unused) : r ≠ commandReg) w c
  cases hc : decodeCommand c with
  | ok i =>
    rw [performCommand_known hc, performCommand_known hc, comm]
    exact exec_setReg_unused unused i _ w
  | error e =>
    rw [performCommand_unknown hc, performCommand_unknown hc, comm]
    exact ⟨_, rfl, rfl⟩

end

/-- Two machines go on to states that agree in everything but the register file. -/
def AgreeButRegs (a b : Host.Outcome State Fault Refusal) : Prop :=
  ∃ t u : State, a = .next t ∧ b = .next u ∧ u = { t with regs := u.regs }

theorem agreeButRegs_of_setReg {a b : Host.Outcome State Fault Refusal} {r : Fin 18} {w : Word}
    (h : ∃ t, a = .next t ∧ b = .next (t.setReg r w)) : AgreeButRegs a b := by
  obtain ⟨t, ha, hb⟩ := h
  exact ⟨t, t.setReg r w, ha, hb, rfl⟩

theorem perform_agreeButRegs (x : Input) (s : State) {r : Fin 18} (w : Word)
    (unused : r ∈ ([2, 3, 13, 14, 15] : List (Fin 18))) : AgreeButRegs (perform x s) (perform x (s.setReg r w)) := by
  cases x with
  | transaction tr =>
    cases tr with
    | request f => exact agreeButRegs_of_setReg (exec_setReg_unused unused (decodeRequest f) s w)
    | command c => exact agreeButRegs_of_setReg (performCommand_setReg_unused unused c s w)
  | busRead addr =>
    obtain ⟨i, -, runs⟩ := perform_busRead_runs_instr addr
    rw [runs, runs]
    exact agreeButRegs_of_setReg (exec_setReg_unused unused i s w)
  | busWrite addr v =>
    obtain ⟨i, -, runs⟩ := perform_busWrite_runs_instr addr v
    rw [runs, runs]
    exact agreeButRegs_of_setReg (exec_setReg_unused unused i s w)
  | regWrite q v =>
    by_cases isCommand : q = commandReg
    · simp only [perform, performRegWrite, if_pos isCommand]
      exact agreeButRegs_of_setReg (performCommand_setReg_unused unused v s w)
    · simp only [perform, performRegWrite, if_neg isCommand]
      exact ⟨_, _, rfl, rfl, rfl⟩
  | tick text sinkAttached =>
    exact agreeButRegs_of_setReg ⟨_, rfl, congrArg Host.Outcome.next (State.tick_setReg s r w text sinkAttached)⟩
  | resetInput => exact agreeButRegs_of_setReg (exec_setReg_unused unused .reset s w)
  | statusWrite | draw | controllerReset | sinkMessage => exact ⟨_, _, rfl, rfl, rfl⟩

/-- Settles O55: no instruction reads or writes an unused register, and no other input reads a register at all. -/
theorem unusedRegistersReachNothing : Obligations.UnusedRegistersReachNothing :=
  fun x s _ w unused => perform_agreeButRegs x s w unused

end Sys2Proof.Machine
end

section
/-! PROOFS of the statements about the planes as memory: where a pixel lies among the bytes, the writes that may be
repeated, and the host window. -/

namespace Sys2Proof.Machine

/-! ## Bytes and pixels (R11, R21) -/

/-- Every bit of every byte of a plane is a pixel of the grid (R21). -/
theorem bytePixel_inBounds {i k : Nat} (hi : i < 16000) (hk : k < 8) :
    InBounds (8 * ((i % 80 : Nat) : Int) + 7 - k) ((i / 80 : Nat) : Int) := by
  refine ⟨?_, ?_, ?_, ?_⟩ <;> omega

/-- Row `y` takes 80 bytes, the first at `80*y` (R11, R21). -/
theorem byteIndex_in_row {x y : Int} (h : InBounds x y) :
    80 * y ≤ (byteIndex x y : Int) ∧ (byteIndex x y : Int) ≤ 80 * y + 79 := by
  unfold byteIndex
  omega

/-- Settles O9: the map of R21 is `Memory.read_bit_eq_pix`, here also at its first and its last pixel. -/
theorem bytesAreRowsOfEightPixels : Obligations.BytesAreRowsOfEightPixels :=
  ⟨fun m _ _ hi hk => ⟨bytePixel_inBounds hi hk, (Memory.read_bit_eq_pix m hk).symm⟩,
    fun _ _ h => byteIndex_in_row h,
    fun m => ⟨(Memory.read_bit_eq_pix m (i := 0) (k := 7) (by omega)).symm,
      (Memory.read_bit_eq_pix m (i := 15999) (k := 0) (by omega)).symm⟩⟩

/-! ## Idempotent writes (R29) -/

/-- Painting the same points with the same value again changes nothing. -/
theorem Memory.paint_paint {m : Memory} (h : m.wf = true) (points : List (Int × Int)) (b : Bool) :
    (m.paint points b).paint points b = m.paint points b := by
  have painted := Memory.paint_wf h points b
  refine Memory.ext_pix (Memory.paint_wf painted points b) painted fun x y inside => ?_
  rw [Memory.pix_paint painted points b inside, Memory.pix_paint h points b inside]
  split <;> rfl

/-- The same window write again changes nothing (R29, R60). -/
theorem Memory.windowWrite_windowWrite {m : Memory} (h : m.wf = true) (i : Int) (b : Byte) :
    (m.windowWrite i b).windowWrite i b = m.windowWrite i b := by
  have written := Memory.windowWrite_wf h i b
  refine Memory.ext_read (Memory.windowWrite_wf written i b) written fun j _ => ?_
  rw [Memory.read_windowWrite written, Memory.read_windowWrite h]
  split <;> rfl

/-- Doing `i` twice from `s` leaves both planes as doing it once. -/
def RepeatKeepsPlanes (i : Instr) (s : State) : Prop :=
  ∃ t u : State, exec i s = .next t ∧ exec i t = .next u ∧ u.back = t.back ∧ u.front = t.front

/-- An instruction that only rewrites the back plane may be repeated when its rewriting may. -/
theorem repeatKeepsPlanes_of_setBack {i : Instr} {s : State} (f : Memory → Memory)
    (runs : ∀ s, exec i s = .next (s.setBack (f s.back))) (idempotent : f (f s.back) = f s.back) :
    RepeatKeepsPlanes i s :=
  ⟨s.setBack (f s.back), _, runs s, runs _, idempotent, rfl⟩

/-- A second SWAP publishes the same back plane again (R61). -/
theorem swap_repeatKeepsPlanes (s : State) : RepeatKeepsPlanes .swap s :=
  ⟨s.swapPlanes, s.swapPlanes.swapPlanes, rfl, rfl, rfl, rfl⟩

/-- Settles O27: each listed instruction but SWAP rewrites the back plane by an idempotent operation:
a clear, one byte, or a painting of the points it names (SETPIX of one point). -/
theorem writesAreIdempotent : Obligations.WritesAreIdempotent := by
  intro i s inv listed
  have painting (points : List (Int × Int)) (b : Bool) := Memory.paint_paint inv.back points b
  rcases listed with ⟨x, y, v, rfl⟩ | ⟨x1, x2, y, v, rfl⟩ | ⟨x, y1, y2, v, rfl⟩ | ⟨x1, y1, x2, y2, v, rfl⟩ | rfl |
    ⟨k, w, rfl⟩ | rfl
  · exact repeatKeepsPlanes_of_setBack (·.setPixel x y (pixelBit v)) (fun _ => rfl) (painting [(x, y)] _)
  · exact repeatKeepsPlanes_of_setBack (·.hline x1 x2 y (pixelBit v)) (fun _ => rfl) (painting (hlinePoints x1 x2 y) _)
  · exact repeatKeepsPlanes_of_setBack (·.vline x y1 y2 (pixelBit v)) (fun _ => rfl) (painting (vlinePoints x y1 y2) _)
  · exact repeatKeepsPlanes_of_setBack (·.fillRect x1 y1 x2 y2 (pixelBit v)) (fun _ => rfl)
      (painting (rectPoints x1 y1 x2 y2) _)
  · exact repeatKeepsPlanes_of_setBack (fun _ => []) (fun _ => rfl) rfl
  · exact repeatKeepsPlanes_of_setBack (·.windowWrite k (lowByte w)) (fun _ => rfl)
      (Memory.windowWrite_windowWrite inv.back k _)
  · exact swap_repeatKeepsPlanes s

/-! ## The host window (R31, R73) -/

/-- An address has a window offset exactly when it lies that far above FB_WINDOW_BASE, within the plane (R31). -/
theorem windowOffset_eq_some {addr : Word} {j : Int} :
    windowOffset addr = some j ↔ InPlane j ∧ (addr.toNat : Int) = Config.fbWindowBase.toNat + j := by
  simp only [windowOffset]
  split
  next inside => rw [Option.some.injEq]; omega
  next outside => simp only [reduceCtorEq, false_iff]; omega

theorem perform_bus_in_window {addr : Word} {j : Int} (at_j : windowOffset addr = some j) (w : Word) (s : State) :
    perform (.busRead addr) s = exec (.hostrd j) s ∧ perform (.busWrite addr w) s = exec (.hostwr j w) s := by
  simp only [perform, performBusRead, performBusWrite, at_j, and_self]

theorem perform_bus_outside_window {addr : Word} (outside : windowOffset addr = none) (w : Word) (s : State) :
    perform (.busRead addr) s = .next s ∧ perform (.busWrite addr w) s = .next s := by
  simp only [perform, performBusRead, performBusWrite, outside, and_self]

/-- Settles O53: which of the two happens to an access is decided by `windowOffset_eq_some`. -/
theorem windowAccessIsHostOperation : Obligations.WindowAccessIsHostOperation := by
  refine ⟨fun s addr w i hi at_i => ?_, fun s addr w elsewhere => ?_⟩
  · exact perform_bus_in_window (windowOffset_eq_some.2 ⟨by omega, by omega⟩) w s
  · refine perform_bus_outside_window (Option.eq_none_iff_forall_ne_some.2 fun j hj => ?_) w s
    obtain ⟨inside, at_j⟩ := windowOffset_eq_some.1 hj
    exact elsewhere j.toNat (by omega) (by omega)

end Sys2Proof.Machine
end

section
/-! PROOFS of the statements about the encoding: the decoder and the encoder are inverse on well-formed instructions, the
parts of a frame that the decoder does not read, and the request lines. -/

namespace Sys2Proof

/-! ## Operand words (R44) -/

/-- Settles O7: bit 31 is the sign bit. -/
theorem operandWordsAreTwosComplement : Obligations.OperandWordsAreTwosComplement := by
  intro a
  have sign : a.msb = a.getLsbD 31 := BitVec.msb_eq_getLsbD_last a
  have cond := BitVec.toInt_eq_msb_cond a
  rw [sign] at cond
  exact cond

/-! ## Decoding what was encoded (R38, R40, R66) -/

/-- The header of an encoded request carries its operation in bits [3:0] (R39, R48). -/
theorem requestFrame_op (op : Nat) (xs : List Int) : (requestFrame op xs).op = op % 16 := by
  simp only [Frame.op, requestFrame, BitVec.toNat_ofNat]
  omega

/-- Settles O1: a row without signed operands is decoded by evaluation; in the others the header selects the row again
and each operand comes back from its word by `val_operandWord`. -/
theorem decodeOfEncodeIsIdentity : Obligations.DecodeOfEncodeIsIdentity := by
  intro i fits
  cases i with
  | setpix | getpix | hline | vline | fillrect | scrollup | scrolldn | copyrgn | hostrd =>
    simp only [Instr.wf, List.all_cons, List.all_nil, Bool.and_eq_true, Bool.and_true] at fits
    simp only [encode, decode, decodeRequest, requestFrame_op, Nat.reduceMod]
    simp only [requestFrame, List.getD_cons_zero, List.getD_cons_succ, val_operandWord, fits]
  | hostwr k w => exact congrArg (fun offset => Except.ok (Instr.hostwr offset w)) (val_operandWord fits)
  | _ => rfl

/-! ## Well-formed answers (R44) -/

/-- A request's operands are values of operand words, so they fit. -/
theorem decodeRequest_wf (f : Frame) : (decodeRequest f).wf = true := by
  unfold decodeRequest
  split <;> simp only [Instr.wf, operandFits_val, List.all_cons, List.all_nil, Bool.and_true]

/-- A command has no operand. -/
theorem decodeCommand_wf {c : Word} {i : Instr} (h : decodeCommand c = .ok i) : i.wf = true := by
  unfold decodeCommand at h
  split at h
  case h_16 => exact nomatch h
  all_goals
    cases h
    rfl

/-- Settles O2, by the port. -/
theorem decodedInstructionIsWellFormed : Obligations.DecodedInstructionIsWellFormed := by
  intro t i h
  cases t with
  | request f =>
    obtain rfl := Except.ok.inj h
    exact decodeRequest_wf f
  | command c => exact decodeCommand_wf h

/-- Settles O4. -/
theorem sampleWordsDecode : Obligations.SampleWordsDecode := by
  unfold Obligations.SampleWordsDecode
  decide

/-! ## What the decoder does not read (R41, R43) -/

/-- The operand words of a frame, `A0` first. -/
def Frame.operands (f : Frame) : List Word := [f.a0, f.a1, f.a2, f.a3, f.a4, f.a5]

/-- How many operand words the row of `op` names; they are the first ones (R40). -/
def namedWords (op : Nat) : Nat := [0, 0, 0, 3, 2, 4, 4, 5, 1, 1, 6, 1, 2, 0, 0, 0].getD op 0

/-- The decoder reads `op` and the operand words its row names, and nothing else (R41, R43). -/
theorem decodeRequest_congr {f g : Frame} (same_op : f.op = g.op)
    (same_named : f.operands.take (namedWords f.op) = g.operands.take (namedWords f.op)) :
    decodeRequest f = decodeRequest g := by
  have lt := f.op_lt
  unfold decodeRequest
  rw [← same_op]
  generalize f.op = op at *
  interval_cases op
  all_goals
    simp only [namedWords, Frame.operands, List.getD_cons_zero, List.getD_cons_succ, List.take_succ_cons, List.take_zero,
      List.cons.injEq, and_true] at same_named
    simp only [same_named]

/-- Only bits [3:0] of the header reach `op` (R39, R43). -/
theorem Frame.op_eq_of_bits {f g : Frame} (h : f.h.extractLsb' 0 4 = g.h.extractLsb' 0 4) : f.op = g.op := by
  rw [Frame.op_eq_bits, Frame.op_eq_bits, h]

theorem Frame.operands_eq_of_setHeader {f g : Frame} (h : { f with h := 0#32 } = { g with h := 0#32 }) :
    f.operands = g.operands :=
  (congrArg Frame.operands h :)

theorem decodeRequest_reservedF {f : Frame} (h : f.op = 0xF) : decodeRequest f = .reservedF := by
  simp only [decodeRequest, h]

end Sys2Proof

namespace Sys2Proof.Machine

/-- Settles O5: `decodeRequest_congr`, the reserved operation, and that every instruction completes. -/
theorem reservedHeaderBitsAreIgnored : Obligations.ReservedHeaderBitsAreIgnored := by
  refine ⟨fun f g bits rest => ?_, fun f s bits => ?_, fun f s => ?_⟩
  · exact decodeRequest_congr (Frame.op_eq_of_bits bits) (by rw [Frame.operands_eq_of_setHeader rest])
  · have reserved : f.op = 0xF := by rw [Frame.op_eq_bits, bits]; rfl
    rw [decodeRequest_reservedF reserved]
    rfl
  · obtain ⟨t, runs, -⟩ := exec_updates (decodeRequest f) s
    exact ⟨t, runs⟩

/-- Settles O6: the two requests decode alike. -/
theorem unnamedOperandWordsAreIgnored : Obligations.UnnamedOperandWordsAreIgnored := by
  intro f g s header named
  rw [← Frame.op_eq_bits] at named
  have same_op : f.op = g.op := by rw [Frame.op, Frame.op, header]
  rw [perform_request, perform_request, decodeRequest_congr same_op named]

/-! ## Request lines (R48, R49) -/

/-- A literal that fits an operand word stands for itself (R44, R48). -/
theorem literalValue_of_fits {x : Int} (h : operandFits x = true) : literalValue x = some x := by
  have inWord : -2147483648 ≤ x ∧ x ≤ 4294967295 := by
    simp only [operandFits, Bool.and_eq_true, decide_eq_true_eq] at h
    omega
  rw [literalValue, if_pos inWord, val_operandWord h]

/-- A line whose literals fit is assembled from them as they stand (R48). -/
theorem assemble_of_fits (mnemonic : String) {xs : List Int} (h : ∀ x ∈ xs, operandFits x = true) :
    assemble mnemonic xs = assembleValues mnemonic xs := by
  have values : xs.mapM literalValue = some xs := by
    induction xs with
    | nil => rfl
    | cons x xs ih =>
      obtain ⟨hx, hxs⟩ := List.forall_mem_cons.1 h
      rw [List.mapM_cons, literalValue_of_fits hx, ih hxs]
      rfl
  rw [assemble, values]
  rfl

/-- A drawing call of a rectangle of at least one row and column is the FILLRECT of its corners (R68). -/
theorem perform_fillRectangle {x y w h : Int} (nonempty : 1 ≤ w ∧ 1 ≤ h) (v : Int) (s : State) :
    perform (.draw (.fillRectangle x y w h v)) s = exec (.fillrect x y (x + w - 1) (y + h - 1) v) s := by
  rw [perform_draw, Memory.draw, Memory.fillRectangle, if_pos nonempty]
  rfl

/-- A drawing call of an empty rectangle does nothing (R68). -/
theorem perform_fillRectangle_empty {w h : Int} (empty : ¬ (1 ≤ w ∧ 1 ≤ h)) (x y v : Int) (s : State) :
    perform (.draw (.fillRectangle x y w h v)) s = .next s := by
  rw [perform_draw, Memory.draw, Memory.fillRectangle, if_neg empty]
  rfl

/-- One request alone. -/
theorem execAll_singleton (i : Instr) (s : State) : execAll [i] s = exec i s := by
  simp only [execAll]
  cases exec i s <;> rfl

/-- Settles O8: the operands reach the expansion as they stand, and RECTWH and the drawing call split on the same
emptiness test. -/
theorem pseudoOperationsExpand : Obligations.PseudoOperationsExpand := by
  intro x y w h v hx hy hw hh hv
  have corner : ∀ a ∈ [x, y], operandFits a = true := by simp [hx, hy]
  have rectangle : ∀ a ∈ [x, y, w, h, v], operandFits a = true := by simp [hx, hy, hw, hh, hv]
  refine ⟨assemble_of_fits "PSET" corner, assemble_of_fits "PCLR" corner, rfl, _,
    assemble_of_fits "RECTWH" rectangle, fun nonempty => if_pos nonempty, fun empty => if_neg empty, fun s => ?_⟩
  by_cases nonempty : 1 ≤ w ∧ 1 ≤ h
  · rw [if_pos nonempty, execAll_singleton, perform_fillRectangle nonempty]
  · rw [if_neg nonempty, perform_fillRectangle_empty nonempty]
    rfl

end Sys2Proof.Machine
end

section
/-! PROOFS of the statements about the pixel operations: SETPIX, GETPIX, and the one after the other. -/

namespace Sys2Proof

/-- The header bits name the row the decoder takes (R39, R40). -/
theorem Frame.op_of_bits {f : Frame} {k : BitVec 4} (h : f.h.extractLsb' 0 4 = k) : f.op = k.toNat := by
  rw [Frame.op_eq_bits, h]

theorem decodeRequest_setpix {f : Frame} (h : f.h.extractLsb' 0 4 = 0x3#4) :
    decodeRequest f = .setpix (val f.a0) (val f.a1) (val f.a2) := by
  simp only [decodeRequest, Frame.op_of_bits h, BitVec.reduceToNat]

theorem decodeRequest_getpix {f : Frame} (h : f.h.extractLsb' 0 4 = 0x4#4) :
    decodeRequest f = .getpix (val f.a0) (val f.a1) := by
  simp only [decodeRequest, Frame.op_of_bits h, BitVec.reduceToNat]

end Sys2Proof

namespace Sys2Proof.Machine

/-! ## What the two instructions come to (R50, R51) -/

theorem exec_setpix (x y v : Int) (s : State) :
    exec (.setpix x y v) s = .next (s.setBack (s.back.setPixel x y (pixelBit v))) := rfl

theorem exec_getpix (x y : Int) (s : State) :
    exec (.getpix x y) s = .next (s.emit (.response (bitWord (s.back.getPixel x y)))) := rfl

/-- GETPIX has one response only. -/
theorem exec_getpix_responds_iff {x y : Int} {s : State} {r : Word} :
    exec (.getpix x y) s = .next { s with outputs := s.outputs ++ [.response r] } ↔
      bitWord (s.back.getPixel x y) = r := by
  simp [exec_getpix, State.emit_eq]

/-! ## Pixel bits as words and bytes (R42, R45, R50) -/

theorem setWidth_ofBool (b : Bool) : BitVec.setWidth 32 (BitVec.ofBool b) = bitWord b := by
  cases b <;> rfl

theorem bitWord_pixelBit (v : Int) : bitWord (pixelBit v) = if v = 0 then 0#32 else 1#32 := by
  by_cases zero : v = 0 <;> simp [bitWord, pixelBit, zero]

/-- A non-zero value ORs the pixel's mask into the byte, zero ANDs its complement (R45, R50). -/
theorem setByteBit_pixelBit (c : Byte) (k : Nat) (v : Int) :
    setByteBit c k (pixelBit v) = if v ≠ 0 then c ||| bitMask k else c &&& ~~~bitMask k := by
  by_cases zero : v = 0 <;> simp [setByteBit, pixelBit, zero]

/-- The byte of a grid point, as an integer offset (R8). -/
theorem eq_byteIndex_iff {x y : Int} (inside : InBounds x y) {i : Nat} :
    i = byteIndex x y ↔ (i : Int) = 80 * y + x / 8 := by
  unfold byteIndex
  omega

/-! ## A clipped read after a clipped write (R27) -/

theorem Memory.getPixel_setPixel {m : Memory} (h : m.wf = true) {x y : Int} (inside : InBounds x y) (b : Bool)
    (x' y' : Int) :
    (m.setPixel x y b).getPixel x' y' = if x' = x ∧ y' = y then b else m.getPixel x' y' := by
  by_cases inside' : InBounds x' y'
  · simp only [Memory.getPixel, if_pos inside', Memory.pix_setPixel h x y inside']
  · have elsewhere : ¬ (x' = x ∧ y' = y) := fun ⟨ex, ey⟩ => inside' (ex ▸ ey ▸ inside)
    simp only [Memory.getPixel, if_neg inside', if_neg elsewhere]

/-! ## The statements -/

/-- Settles O19: the response is the clipped read of the back plane. -/
theorem getpixReturnsBackPixel : Obligations.GetpixReturnsBackPixel := by
  refine ⟨fun f bits => decodeRequest_getpix bits, fun s x y => exec_getpix_responds_iff.2 ?_⟩
  rw [setWidth_ofBool]
  unfold Memory.getPixel
  split <;> rfl

/-- Settles O18: inside the grid the clipped write is `setPix`, which changes one bit of one byte; outside there is
no write. -/
theorem setpixWritesOneClippedPixel : Obligations.SetpixWritesOneClippedPixel := by
  refine ⟨fun f bits => decodeRequest_setpix bits, fun s x y v wf =>
    ⟨s.back.setPixel x y (pixelBit v), exec_setpix x y v s, fun inside i => ?_, fun outside => if_neg outside⟩⟩
  have byte : (s.back.setPixel x y (pixelBit v)).read i =
      if i = byteIndex x y then setByteBit (s.back.read (byteIndex x y)) (bitPos x) (pixelBit v)
      else s.back.read i := by
    rw [Memory.setPixel, if_pos inside, Memory.read_setPix wf]
  by_cases here : i = byteIndex x y
  · rw [byte, if_pos here, if_pos ((eq_byteIndex_iff inside).1 here), setByteBit_pixelBit, ← here]
    rfl
  · rw [byte, if_neg here, if_neg fun at_i => here ((eq_byteIndex_iff inside).2 at_i)]

/-- Settles O20: both readings are clipped reads of the plane after the write, `Memory.getPixel_setPixel`. -/
theorem getpixSeesSetpix : Obligations.GetpixSeesSetpix := by
  intro s x y v wf inside
  have reads := Memory.getPixel_setPixel wf inside (pixelBit v)
  refine ⟨s.setBack (s.back.setPixel x y (pixelBit v)), exec_setpix x y v s, exec_getpix_responds_iff.2 ?_,
    fun x' y' elsewhere r before => exec_getpix_responds_iff.2 ?_⟩
  · rw [State.setBack_back, reads x y, if_pos ⟨rfl, rfl⟩, bitWord_pixelBit]
  · rw [State.setBack_back, reads x' y', if_neg elsewhere]
    exact exec_getpix_responds_iff.1 before

end Sys2Proof.Machine
end

section
/-! PROOFS of the statements about the span and fill operations: each of them paints a list of points, so what it does
to pixels and bytes, and that the order of its parts does not matter, are facts about painting. -/

namespace Sys2Proof

theorem decodeRequest_clear {f : Frame} (h : f.h.extractLsb' 0 4 = 0x1#4) : decodeRequest f = .clear := by
  simp only [decodeRequest, Frame.op_of_bits h, BitVec.reduceToNat]

theorem decodeRequest_hline {f : Frame} (h : f.h.extractLsb' 0 4 = 0x5#4) :
    decodeRequest f = .hline (val f.a0) (val f.a1) (val f.a2) (val f.a3) := by
  simp only [decodeRequest, Frame.op_of_bits h, BitVec.reduceToNat]

theorem decodeRequest_vline {f : Frame} (h : f.h.extractLsb' 0 4 = 0x6#4) :
    decodeRequest f = .vline (val f.a0) (val f.a1) (val f.a2) (val f.a3) := by
  simp only [decodeRequest, Frame.op_of_bits h, BitVec.reduceToNat]

theorem decodeRequest_fillrect {f : Frame} (h : f.h.extractLsb' 0 4 = 0x7#4) :
    decodeRequest f = .fillrect (val f.a0) (val f.a1) (val f.a2) (val f.a3) (val f.a4) := by
  simp only [decodeRequest, Frame.op_of_bits h, BitVec.reduceToNat]

end Sys2Proof

namespace Sys2Proof.Machine

/-! ## The painting instructions (R50, R52 to R54) -/

/-- The instruction's whole effect, in every state, is to paint `points` with `b` on the back plane. -/
def Paints (i : Instr) (points : List (Int × Int)) (b : Bool) : Prop :=
  ∀ s : State, exec i s = .next (s.setBack (s.back.paint points b))

theorem paints_setpix (x y v : Int) : Paints (.setpix x y v) [(x, y)] (pixelBit v) := fun _ => rfl

theorem paints_hline (x1 x2 y v : Int) : Paints (.hline x1 x2 y v) (hlinePoints x1 x2 y) (pixelBit v) := fun _ => rfl

theorem paints_vline (x y1 y2 v : Int) : Paints (.vline x y1 y2 v) (vlinePoints x y1 y2) (pixelBit v) := fun _ => rfl

theorem paints_fillrect (x1 y1 x2 y2 v : Int) :
    Paints (.fillrect x1 y1 x2 y2 v) (rectPoints x1 y1 x2 y2) (pixelBit v) := fun _ => rfl

/-! ## What painting does to one pixel and to one byte -/

/-- The pixels of a region `P` are painted when the list names, of the grid, just that region. -/
theorem Memory.pix_paint_region {m : Memory} (h : m.wf = true) {points : List (Int × Int)} {x y : Int} {P : Prop}
    [Decidable P] (named : (x, y) ∈ points ↔ InBounds x y ∧ P) (inside : InBounds x y) (b : Bool) :
    (m.paint points b).pix x y = if P then b else m.pix x y := by
  rw [Memory.pix_paint h points b inside]
  exact if_congr (named.trans (and_iff_right inside)) rfl rfl

/-- A byte is kept when R11 puts no named grid point into it. -/
theorem Memory.read_paint_of_no_point {m : Memory} (h : m.wf = true) {points : List (Int × Int)} {i : Nat}
    (no_point : ∀ p ∈ points, InBounds p.1 p.2 → (i : Int) ≠ 80 * p.2 + p.1 / 8) (b : Bool) :
    (m.paint points b).read i = m.read i :=
  Memory.read_paint_other h points b fun p named inside at_i =>
    no_point p named inside ((eq_byteIndex_iff inside).1 at_i.symm)

/-! ## The order of painting (R52) -/

theorem Memory.paint_append (m : Memory) (ps qs : List (Int × Int)) (b : Bool) :
    m.paint (ps ++ qs) b = (m.paint ps b).paint qs b := by
  rw [Memory.paint, List.map_append, Memory.plot_append]
  rfl

/-- Painting with one value depends only on which grid points are named, not on their order or their number. -/
theorem Memory.paint_congr {m : Memory} (h : m.wf = true) {ps qs : List (Int × Int)}
    (same : ∀ x y, InBounds x y → ((x, y) ∈ ps ↔ (x, y) ∈ qs)) (b : Bool) : m.paint ps b = m.paint qs b := by
  refine Memory.ext_pix (Memory.paint_wf h ps b) (Memory.paint_wf h qs b) fun x y inside => ?_
  rw [Memory.pix_paint h ps b inside, Memory.pix_paint h qs b inside]
  exact if_congr (same x y inside) rfl rfl

/-- Painting instructions one after the other paint all their points, list after list. -/
theorem execAll_paints {instr : Int → Instr} {points : Int → List (Int × Int)} {b : Bool}
    (paints : ∀ k, Paints (instr k) (points k) b) (ks : List Int) (s : State) :
    execAll (ks.map instr) s = .next (s.setBack (s.back.paint (ks.flatMap points) b)) := by
  induction ks generalizing s with
  | nil => rfl
  | cons k ks ih =>
    rw [List.flatMap_cons, Memory.paint_append, List.map_cons, execAll, paints k s]
    exact ih (s.setBack (s.back.paint (points k) b))

/-- Painting instructions come to one that paints the same grid points. -/
theorem execAll_paints_eq {instr : Int → Instr} {points : Int → List (Int × Int)} {whole : Instr}
    {all : List (Int × Int)} {b : Bool} (parts : ∀ k, Paints (instr k) (points k) b) (paints : Paints whole all b)
    {ks : List Int} {s : State} (h : s.back.wf = true)
    (same : ∀ x y, InBounds x y → ((∃ k ∈ ks, (x, y) ∈ points k) ↔ (x, y) ∈ all)) :
    execAll (ks.map instr) s = exec whole s := by
  rw [execAll_paints parts, paints s,
    Memory.paint_congr h fun x y inside => List.mem_flatMap.trans (same x y inside)]

/-! ## The statements -/

/-- Settles O26: the plane left is the empty list, in which no byte is listed. -/
theorem clearZeroesBackOnly : Obligations.ClearZeroesBackOnly :=
  ⟨fun _ bits => decodeRequest_clear bits, fun _ => ⟨[], rfl, Memory.read_nil⟩⟩

/-- Settles O21: HLINE paints `hlinePoints`, whose members are the grid points of the run. -/
theorem hlineSetsClippedRun : Obligations.HlineSetsClippedRun := by
  refine ⟨fun f bits => decodeRequest_hline bits, fun s x1 x2 y v wf =>
    ⟨_, paints_hline x1 x2 y v s, fun a b inside => Memory.pix_paint_region wf mem_hlinePoints inside _,
      fun i no_point => Memory.read_paint_of_no_point wf (fun p named inside => ?_) _⟩⟩
  obtain ⟨-, rfl, from_lo, to_hi⟩ := mem_hlinePoints.1 named
  exact no_point p.1 inside from_lo to_hi

/-- Settles O23: VLINE paints `vlinePoints`, whose members are the grid points of the run. -/
theorem vlineSetsClippedRun : Obligations.VlineSetsClippedRun := by
  refine ⟨fun f bits => decodeRequest_vline bits, fun s x y1 y2 v wf =>
    ⟨_, paints_vline x y1 y2 v s, fun a b inside => Memory.pix_paint_region wf mem_vlinePoints inside _,
      fun i no_point => Memory.read_paint_of_no_point wf (fun p named inside => ?_) _⟩⟩
  obtain ⟨-, rfl, from_lo, to_hi⟩ := mem_vlinePoints.1 named
  exact no_point p.2 inside from_lo to_hi

/-- Settles O24: FILLRECT paints `rectPoints`, whose members are the grid points between the corners. -/
theorem fillrectSetsClippedRectangle : Obligations.FillrectSetsClippedRectangle := by
  refine ⟨fun f bits => decodeRequest_fillrect bits, fun s x1 y1 x2 y2 v wf =>
    ⟨_, paints_fillrect x1 y1 x2 y2 v s, fun a b inside => Memory.pix_paint_region wf mem_rectPoints inside _,
      fun i no_point => Memory.read_paint_of_no_point wf (fun p named inside => ?_) _⟩⟩
  obtain ⟨-, from_left, to_right, from_top, to_bottom⟩ := mem_rectPoints.1 named
  exact no_point p.1 p.2 inside from_left to_right from_top to_bottom

/-- Settles O22: the SETPIX requests name the integers of the unclipped run, of which the grid's are HLINE's points. -/
theorem hlineIsSetpixInAnyOrder : Obligations.HlineIsSetpixInAnyOrder := by
  intro s x1 x2 y v xs wf run
  refine execAll_paints_eq (fun a => paints_setpix a y v) (paints_hline x1 x2 y v) wf fun a b inside => ?_
  rw [mem_hlinePoints]
  constructor
  · rintro ⟨k, listed, named⟩
    obtain ⟨rfl, rfl⟩ := Prod.mk.inj (List.mem_singleton.1 named)
    exact ⟨inside, rfl, (run a).1 listed⟩
  · rintro ⟨-, rfl, between⟩
    exact ⟨a, (run a).2 between, List.mem_singleton_self _⟩

/-- Settles O25: the rows' points are together the rectangle's. -/
theorem fillrectIsHlinesInAnyOrder : Obligations.FillrectIsHlinesInAnyOrder := by
  intro s x1 y1 x2 y2 v ys wf rows
  refine execAll_paints_eq (fun b => paints_hline x1 x2 b v) (paints_fillrect x1 y1 x2 y2 v) wf fun a b inside => ?_
  simp only [mem_hlinePoints, mem_rectPoints]
  constructor
  · rintro ⟨k, listed, -, rfl, from_left, to_right⟩
    exact ⟨inside, from_left, to_right, (rows b).1 listed⟩
  · rintro ⟨-, from_left, to_right, between⟩
    exact ⟨b, (rows b).2 between, inside, rfl, from_left, to_right⟩

end Sys2Proof.Machine
end

section
/-! PROOFS of the statements about the scroll and copy operations: what a scroll leaves in each byte and each row, the
order in which COPYRGN's iterations come, and what they do to the pixels when no iteration reads what another wrote. -/

namespace Sys2Proof

theorem decodeRequest_scrollup {f : Frame} (h : f.h.extractLsb' 0 4 = 0x8#4) :
    decodeRequest f = .scrollup (val f.a0) := by
  simp only [decodeRequest, Frame.op_of_bits h, BitVec.reduceToNat]

theorem decodeRequest_scrolldn {f : Frame} (h : f.h.extractLsb' 0 4 = 0x9#4) :
    decodeRequest f = .scrolldn (val f.a0) := by
  simp only [decodeRequest, Frame.op_of_bits h, BitVec.reduceToNat]

theorem decodeRequest_copyrgn {f : Frame} (h : f.h.extractLsb' 0 4 = 0xA#4) :
    decodeRequest f = .copyrgn (val f.a0) (val f.a1) (val f.a2) (val f.a3) (val f.a4) (val f.a5) := by
  simp only [decodeRequest, Frame.op_of_bits h, BitVec.reduceToNat]

end Sys2Proof

namespace Sys2Proof.Machine

/-! ## Scrolling (R56, R57) -/

theorem exec_scrollup (n : Int) (s : State) : exec (.scrollup n) s = .next (s.setBack (s.back.scrollUp n)) := rfl

theorem exec_scrolldn (n : Int) (s : State) : exec (.scrolldn n) s = .next (s.setBack (s.back.scrollDown n)) := rfl

theorem Memory.scrollUp_of_nonpos (m : Memory) {n : Int} (h : n ≤ 0) : m.scrollUp n = m := if_neg (by omega)

theorem Memory.scrollDown_of_nonpos (m : Memory) {n : Int} (h : n ≤ 0) : m.scrollDown n = m := if_neg (by omega)

theorem Memory.read_scrollUp (m : Memory) {n : Int} (pos : 1 ≤ n) (i : Nat) :
    (m.scrollUp n).read i =
      if (i : Int) + 80 * min n 200 ≤ 15999 then m.read (i + (80 * min n 200).toNat) else 0#8 := by
  rw [Memory.scrollUp, if_pos pos, Memory.read_moveDown]
  exact if_congr (by omega) rfl rfl

theorem Memory.read_scrollDown (m : Memory) {n : Int} (pos : 1 ≤ n) {i : Nat} (inside : i < 16000) :
    (m.scrollDown n).read i =
      if 0 ≤ (i : Int) - 80 * min n 200 then m.read (i - (80 * min n 200).toNat) else 0#8 := by
  rw [Memory.scrollDown, if_pos pos, Memory.read_moveUp]
  exact if_congr (by omega) rfl rfl

/-- Row `y` receives row `y + n`: a row is 80 bytes, so the pixel keeps its bit (R11, R56). -/
theorem Memory.pix_scrollUp (m : Memory) {n : Int} (pos : 1 ≤ n) {x y : Int} (inside : InBounds x y) :
    (m.scrollUp n).pix x y = if y + n < 200 then m.pix x (y + n) else false := by
  rw [Memory.pix, Memory.read_scrollUp m pos]
  by_cases stays : y + n < 200
  · have moved : byteIndex x y + (80 * min n 200).toNat = byteIndex x (y + n) := by unfold byteIndex; omega
    rw [if_pos stays, if_pos (by unfold byteIndex; omega), moved]
    rfl
  · rw [if_neg stays, if_neg (by unfold byteIndex; omega), BitVec.getLsbD_zero]

/-- Row `y` receives row `y - n` (R11, R57). -/
theorem Memory.pix_scrollDown (m : Memory) {n : Int} (pos : 1 ≤ n) {x y : Int} (inside : InBounds x y) :
    (m.scrollDown n).pix x y = if 0 ≤ y - n then m.pix x (y - n) else false := by
  rw [Memory.pix, Memory.read_scrollDown m pos (byteIndex_lt inside)]
  by_cases stays : 0 ≤ y - n
  · have moved : byteIndex x y - (80 * min n 200).toNat = byteIndex x (y - n) := by unfold byteIndex; omega
    rw [if_pos stays, if_pos (by unfold byteIndex; omega), moved]
    rfl
  · rw [if_neg stays, if_neg (by unfold byteIndex; omega), BitVec.getLsbD_zero]

/-! ## The order of COPYRGN's iterations (R58) -/

/-- The offsets of a rectangle, row by row and each row from left to right. -/
def rectOffsets (left right top bottom : Int) : List (Int × Int) :=
  (intRange top bottom).flatMap fun j => (intRange left right).map fun i => (i, j)

theorem mem_rectOffsets {left right top bottom : Int} {p : Int × Int} :
    p ∈ rectOffsets left right top bottom ↔ (left ≤ p.1 ∧ p.1 ≤ right) ∧ (top ≤ p.2 ∧ p.2 ≤ bottom) := by
  obtain ⟨i, j⟩ := p
  simp only [rectOffsets, List.mem_flatMap, List.mem_map, mem_intRange, Prod.mk.injEq]
  constructor
  · rintro ⟨b, rows, a, columns, rfl, rfl⟩
    exact ⟨columns, rows⟩
  · rintro ⟨columns, rows⟩
    exact ⟨j, rows, i, columns, rfl, rfl⟩

/-- `p` comes before `q` in the rule's order: in a higher row, or further left in the same row. -/
def RowMajor (p q : Int × Int) : Prop := p.2 < q.2 ∨ p.2 = q.2 ∧ p.1 < q.1

theorem rowMajor_irrefl : Std.Irrefl RowMajor := ⟨fun p before => by unfold RowMajor at before; omega⟩

theorem rowMajor_antisymm : Std.Antisymm RowMajor :=
  ⟨fun p q before after => by unfold RowMajor at before after; omega⟩

theorem intRange_pairwise_lt (lo hi : Int) : (intRange lo hi).Pairwise (· < ·) :=
  List.pairwise_lt_range.map _ fun a b (lt : a < b) => by simp only [Int.ofNat_eq_natCast]; omega

theorem rectOffsets_pairwise (left right top bottom : Int) :
    (rectOffsets left right top bottom).Pairwise RowMajor := by
  refine List.pairwise_flatMap.2 ⟨fun j _ => ?_, (intRange_pairwise_lt top bottom).imp fun above p row_p q row_q => ?_⟩
  · exact (intRange_pairwise_lt left right).map _ fun a b lt => .inr ⟨rfl, lt⟩
  · obtain ⟨a, -, rfl⟩ := List.mem_map.1 row_p
    obtain ⟨b, -, rfl⟩ := List.mem_map.1 row_q
    exact .inl above

/-- The model's iterations are those of the whole rectangle with both points in the grid, in the same order: lists in
row-major order with the same members are equal. -/
theorem copySteps_eq_filter (sx sy dx dy w h : Int) :
    copySteps sx sy dx dy w h = (rectOffsets 0 (w - 1) 0 (h - 1)).filter fun p =>
      InBounds (sx + p.1) (sy + p.2) ∧ InBounds (dx + p.1) (dy + p.2) := by
  have ordered : (copySteps sx sy dx dy w h).Pairwise RowMajor := rectOffsets_pairwise _ _ _ _
  have := rowMajor_irrefl
  have := rowMajor_antisymm
  refine ordered.eq_of_mem_iff ((rectOffsets_pairwise _ _ _ _).filter _) fun p => ?_
  simp only [mem_copySteps, List.mem_filter, mem_rectOffsets, decide_eq_true_eq]
  omega

/-! ## One iteration, and all of them (R58) -/

/-- What iteration `(i, j)` of R58's loops does when both its points lie in the grid. -/
def Memory.copyPixel (sx sy dx dy : Int) (m : Memory) (p : Int × Int) : Memory :=
  m.setPix (dx + p.1) (dy + p.2) (m.pix (sx + p.1) (sy + p.2))

theorem exec_copyrgn (sx sy dx dy w h : Int) (s : State) :
    exec (.copyrgn sx sy dx dy w h) s =
      .next (s.setBack ((copySteps sx sy dx dy w h).foldl (Memory.copyPixel sx sy dx dy) s.back)) := rfl

/-- The rule's nested loops, with their guard, are one pass over the iterations the model keeps. -/
theorem copyLoops_eq_foldl (m : Memory) (sx sy dx dy w h : Int) :
    copyLoops m sx sy dx dy w h = (copySteps sx sy dx dy w h).foldl (Memory.copyPixel sx sy dx dy) m := by
  rw [copySteps_eq_filter, List.foldl_filter, rectOffsets, List.foldl_flatMap]
  simp only [List.foldl_map, decide_eq_true_eq]
  rfl

/-- Writing a pixel with the value it has changes nothing. -/
theorem Memory.setPix_pix {m : Memory} (h : m.wf = true) {x y : Int} (inside : InBounds x y) :
    m.setPix x y (m.pix x y) = m := by
  refine Memory.ext_pix (Memory.setPix_wf h inside _) h fun a b inside' => ?_
  rw [Memory.pix_setPix h inside inside']
  split
  next here => rw [here.1, here.2]
  next => rfl

/-! ## Copies that do not overlap (R58) -/

/-- The pixel writes of a copy that reads every source pixel from `m`. -/
def Memory.copyWrites (m : Memory) (sx sy dx dy : Int) (ps : List (Int × Int)) : List (Int × Int × Bool) :=
  ps.map fun p => (dx + p.1, dy + p.2, m.pix (sx + p.1) (sy + p.2))

/-- The writes name the destination points in the grid whose sources lie in the grid, with their sources' values. -/
theorem Memory.mem_copyWrites {m : Memory} {sx sy dx dy w h : Int} {q : Int × Int × Bool} :
    q ∈ m.copyWrites sx sy dx dy (copySteps sx sy dx dy w h) ↔
      InBounds q.1 q.2.1 ∧ (dx ≤ q.1 ∧ q.1 < dx + w ∧ dy ≤ q.2.1 ∧ q.2.1 < dy + h) ∧
        InBounds (sx + (q.1 - dx)) (sy + (q.2.1 - dy)) ∧ m.pix (sx + (q.1 - dx)) (sy + (q.2.1 - dy)) = q.2.2 := by
  obtain ⟨a, b, v⟩ := q
  simp only [Memory.copyWrites, List.mem_map, mem_copySteps, Prod.mk.injEq]
  constructor
  · rintro ⟨⟨i, j⟩, ⟨columns, rows, source, target⟩, rfl, rfl, value⟩
    rw [add_sub_cancel_left, add_sub_cancel_left]
    exact ⟨target, by omega, source, value⟩
  · rintro ⟨target, region, source, value⟩
    exact ⟨(a - dx, b - dy), ⟨by omega, by omega, source, by omega⟩, by omega, by omega, value⟩

/-- Iterations in the grid of which none reads a pixel that one writes: each source still has its old value. -/
theorem Memory.foldl_copyPixel_eq_plot {sx sy dx dy : Int} {m : Memory} (h : m.wf = true) {ps : List (Int × Int)}
    (inside : ∀ p ∈ ps, InBounds (sx + p.1) (sy + p.2) ∧ InBounds (dx + p.1) (dy + p.2))
    (apart : ∀ p ∈ ps, ∀ q ∈ ps, ¬ (sx + q.1 = dx + p.1 ∧ sy + q.2 = dy + p.2)) :
    ps.foldl (Memory.copyPixel sx sy dx dy) m = m.plot (m.copyWrites sx sy dx dy ps) := by
  induction ps generalizing m with
  | nil => rfl
  | cons p ps ih =>
    obtain ⟨⟨-, target⟩, later_inside⟩ := List.forall_mem_cons.1 inside
    have first : m.copyPixel sx sy dx dy p = m.setPixel (dx + p.1) (dy + p.2) (m.pix (sx + p.1) (sy + p.2)) :=
      (if_pos target).symm
    have same_writes : (m.copyPixel sx sy dx dy p).copyWrites sx sy dx dy ps = m.copyWrites sx sy dx dy ps :=
      List.map_congr_left fun q later => by
        rw [Memory.copyPixel, Memory.pix_setPix h target (later_inside q later).1,
          if_neg (apart p List.mem_cons_self q (List.mem_cons_of_mem _ later))]
    have rest := ih (m := m.copyPixel sx sy dx dy p) (Memory.setPix_wf h target _) later_inside
      fun q later r later' => apart q (List.mem_cons_of_mem _ later) r (List.mem_cons_of_mem _ later')
    rw [List.foldl_cons, rest, same_writes, first]
    rfl

/-! ## The statements -/

/-- Settles O28: the byte form is `Memory.read_scrollUp`, the row form `Memory.pix_scrollUp`. -/
theorem scrollupMovesRowsUp : Obligations.ScrollupMovesRowsUp :=
  ⟨fun _ bits => decodeRequest_scrollup bits, fun s n => ⟨s.back.scrollUp n, exec_scrollup n s,
    fun pos i _ => s.back.read_scrollUp pos i, fun pos _ _ inside => s.back.pix_scrollUp pos inside,
    s.back.scrollUp_of_nonpos⟩⟩

/-- Settles O29: the byte form is `Memory.read_scrollDown`, the row form `Memory.pix_scrollDown`. -/
theorem scrolldnMovesRowsDown : Obligations.ScrolldnMovesRowsDown :=
  ⟨fun _ bits => decodeRequest_scrolldn bits, fun s n => ⟨s.back.scrollDown n, exec_scrolldn n s,
    fun pos _ inside => s.back.read_scrollDown pos inside, fun pos _ _ inside => s.back.pix_scrollDown pos inside,
    s.back.scrollDown_of_nonpos⟩⟩

/-- Settles O30: clipping the ranges drops only iterations that the rule's guard skips, `copySteps_eq_filter`. -/
theorem copyrgnIsTheInPlaceLoops : Obligations.CopyrgnIsTheInPlaceLoops := by
  refine ⟨fun f bits => decodeRequest_copyrgn bits, fun s sx sy dx dy w h => ?_⟩
  rw [exec_copyrgn, copyLoops_eq_foldl, State.setBack_eq]

/-- Settles O31: no iteration reads a destination pixel, so the copy is the plot of `Memory.copyWrites`. -/
theorem copyrgnOfDisjointRegionsMovesPixels : Obligations.CopyrgnOfDisjointRegionsMovesPixels := by
  intro s sx sy dx dy w h wf disjoint
  have copied : (copySteps sx sy dx dy w h).foldl (Memory.copyPixel sx sy dx dy) s.back =
      s.back.plot (s.back.copyWrites sx sy dx dy (copySteps sx sy dx dy w h)) :=
    Memory.foldl_copyPixel_eq_plot wf (fun p step => (mem_copySteps.1 step).2.2) fun p step q step' => by
      rw [mem_copySteps] at step step'
      omega
  refine ⟨_, copied ▸ exec_copyrgn sx sy dx dy w h s, fun a b inside => ?_, fun i no_pixel => ?_⟩
  · split
    next moved =>
      refine Memory.pix_plot_of_mem wf (p := (a, b, s.back.pix (sx + (a - dx)) (sy + (b - dy))))
        (Memory.mem_copyWrites.2 ⟨inside, moved.1, moved.2, rfl⟩) inside ?_
      rintro ⟨_, _, v⟩ listed ⟨rfl, rfl⟩
      obtain ⟨-, -, -, value⟩ := Memory.mem_copyWrites.1 listed
      exact value.symm
    next kept =>
      refine Memory.pix_plot_of_not_mem wf inside ?_
      rintro ⟨_, _, v⟩ listed ⟨rfl, rfl⟩
      obtain ⟨-, region, source, -⟩ := Memory.mem_copyWrites.1 listed
      exact kept ⟨region, source⟩
  · refine Memory.read_plot_other wf _ fun q listed inside at_i => ?_
    obtain ⟨-, ⟨from_left, to_right, from_top, to_bottom⟩, -, -⟩ := Memory.mem_copyWrites.1 listed
    exact no_pixel q.1 q.2.1 inside from_left to_right from_top to_bottom ((eq_byteIndex_iff inside).1 at_i.symm)

/-- Settles O32: every iteration of a copy onto itself writes a pixel with its own value, and an empty copy has none. -/
theorem copyrgnOntoItselfOrEmptyChangesNothing : Obligations.CopyrgnOntoItselfOrEmptyChangesNothing := by
  intro s sx sy dx dy w h wf trivial_copy
  rw [exec_copyrgn]
  have kept : (copySteps sx sy dx dy w h).foldl (Memory.copyPixel sx sy dx dy) s.back = s.back := by
    refine List.foldlRecOn (motive := fun m : Memory => m = s.back) _ _ rfl fun m same p step => ?_
    obtain ⟨columns, rows, -, inside⟩ := mem_copySteps.1 step
    obtain ⟨rfl, rfl⟩ : sx = dx ∧ sy = dy := by omega
    rw [same]
    exact Memory.setPix_pix wf inside
  rw [kept, State.setBack_eq]

end Sys2Proof.Machine
end

section
/-! PROOFS of the statements about the host byte port: HOSTRD answers a clipped byte of the front plane, HOSTWR makes a
clipped write of a byte to the back plane. -/

namespace Sys2Proof

theorem decodeRequest_hostrd {f : Frame} (h : f.h.extractLsb' 0 4 = 0xB#4) : decodeRequest f = .hostrd (val f.a0) := by
  simp only [decodeRequest, Frame.op_of_bits h, BitVec.reduceToNat]

theorem decodeRequest_hostwr {f : Frame} (h : f.h.extractLsb' 0 4 = 0xC#4) :
    decodeRequest f = .hostwr (val f.a0) f.a1 := by
  simp only [decodeRequest, Frame.op_of_bits h, BitVec.reduceToNat]

end Sys2Proof

namespace Sys2Proof.Machine

/-! ## What the two instructions come to (R59, R60) -/

theorem exec_hostrd (i : Int) (s : State) :
    exec (.hostrd i) s = .next (s.emit (.response (byteWord (s.front.windowRead i)))) := rfl

theorem exec_hostwr (i : Int) (w : Word) (s : State) :
    exec (.hostwr i w) s = .next (s.setBack (s.back.windowWrite i (lowByte w))) := rfl

/-! ## Window bytes (R24, R26) -/

/-- The host port's range of offsets, 0 to 15,999, is the plane's (R10, R59, R60). -/
theorem inPlane_iff {i : Int} : InPlane i ↔ 0 ≤ i ∧ i ≤ 15999 := by omega

/-- The byte a window write stores is bits [7:0] of the operand (R24, R60). -/
theorem lowByte_eq_extractLsb' (w : Word) : lowByte w = w.extractLsb' 0 8 :=
  BitVec.setWidth_eq_extractLsb' (by decide)

/-- The response of a window read: the byte zero-extended, or 0 outside the plane (R24, R26, R42). -/
theorem byteWord_windowRead (m : Memory) (i : Int) :
    byteWord (m.windowRead i) = if InPlane i then BitVec.setWidth 32 (m.read i.toNat) else 0#32 := by
  unfold Memory.windowRead
  split <;> rfl

theorem Memory.windowWrite_of_not_inPlane (m : Memory) {i : Int} (outside : ¬ InPlane i) (b : Byte) :
    m.windowWrite i b = m := if_neg outside

/-- Inside the plane the written byte is replaced whole and every other byte is kept (R60). -/
theorem Memory.read_windowWrite_of_inPlane {m : Memory} (h : m.wf = true) {i : Int} (inside : InPlane i) (b : Byte)
    (j : Nat) : (m.windowWrite i b).read j = if (j : Int) = i then b else m.read j := by
  rw [Memory.read_windowWrite h]
  exact if_congr (and_iff_right inside) rfl rfl

/-! ## The statements -/

/-- Settles O33: the response is the clipped read of the front plane, `byteWord_windowRead`. -/
theorem hostrdReturnsFrontByte : Obligations.HostrdReturnsFrontByte := by
  refine ⟨fun _ bits => decodeRequest_hostrd bits, fun s i => ?_⟩
  have response := (byteWord_windowRead s.front i).trans (if_congr inPlane_iff rfl rfl)
  rw [exec_hostrd, State.emit_eq, response]

/-- Settles O34: inside the plane the write replaces one byte, `Memory.read_windowWrite_of_inPlane`; outside there is
no write. -/
theorem hostwrReplacesBackByte : Obligations.HostwrReplacesBackByte := by
  refine ⟨fun _ bits => decodeRequest_hostwr bits, fun s i w wf =>
    ⟨s.back.windowWrite i (lowByte w), exec_hostwr i w s, fun inside j => ?_, fun outside => ?_⟩⟩
  · rw [Memory.read_windowWrite_of_inPlane wf (inPlane_iff.2 inside), lowByte_eq_extractLsb']
  · exact s.back.windowWrite_of_not_inPlane (fun inside => outside (inPlane_iff.1 inside)) _

end Sys2Proof.Machine
end

section
/-! PROOFS of the statements about the buffer and control operations: SWAP, SNAPSHOT, RESET, NOP and the reserved
operation. -/

namespace Sys2Proof

theorem decodeRequest_nop {f : Frame} (h : f.h.extractLsb' 0 4 = 0x0#4) : decodeRequest f = .nop := by
  simp only [decodeRequest, Frame.op_of_bits h, BitVec.reduceToNat]

theorem decodeRequest_swap {f : Frame} (h : f.h.extractLsb' 0 4 = 0x2#4) : decodeRequest f = .swap := by
  simp only [decodeRequest, Frame.op_of_bits h, BitVec.reduceToNat]

theorem decodeRequest_snapshot {f : Frame} (h : f.h.extractLsb' 0 4 = 0xD#4) : decodeRequest f = .snapshot := by
  simp only [decodeRequest, Frame.op_of_bits h, BitVec.reduceToNat]

theorem decodeRequest_reset {f : Frame} (h : f.h.extractLsb' 0 4 = 0xE#4) : decodeRequest f = .reset := by
  simp only [decodeRequest, Frame.op_of_bits h, BitVec.reduceToNat]

end Sys2Proof

namespace Sys2Proof.Machine

/-! ## What the instructions come to (R61 to R65) -/

theorem exec_swap (s : State) : exec .swap s = .next s.swapPlanes := rfl

theorem exec_snapshot (s : State) : exec .snapshot s = .next s.snapshot := rfl

theorem exec_reset (s : State) : exec .reset s = .next s.clearPlanes := rfl

theorem exec_nop (s : State) : exec .nop s = .next s := rfl

theorem exec_reservedF (s : State) : exec .reservedF s = .next s := rfl

/-- The flag SWAP raises is bit 3, BUFFER_SWAP (R67). -/
theorem raiseFlags_bufferSwap (pending : Byte) : raiseFlags pending flagBufferSwap = pending ||| 0x08#8 := rfl

/-! ## The statements -/

/-- Settles O36: the front plane after a SWAP is the back plane itself, `State.swapPlanes_eq`. -/
theorem swapCopiesBackToFront : Obligations.SwapCopiesBackToFront := by
  refine ⟨fun f bits => decodeRequest_swap bits, fun s => ⟨s.back, ?_, fun i => rfl⟩⟩
  rw [exec_swap, State.swapPlanes_eq, raiseFlags_bufferSwap]

/-- Settles O37: the delivered frame is `Memory.bytes` of the front plane. -/
theorem snapshotDeliversFrontBytes : Obligations.SnapshotDeliversFrontBytes := by
  refine ⟨fun f bits => decodeRequest_snapshot bits, fun s =>
    ⟨s.front.bytes, ?_, s.front.bytes_length, fun i inside => s.front.bytes_get inside⟩⟩
  rw [exec_snapshot, State.snapshot_eq]

/-- Settles O38: the reset input performs the RESET request, which leaves two empty lists, in which no byte is
listed. -/
theorem resetClearsBothPlanes : Obligations.ResetClearsBothPlanes := by
  refine ⟨fun f bits => decodeRequest_reset bits, fun s => ?_⟩
  have cleared : exec .reset s = .next { s with back := [], front := [] } := by
    rw [exec_reset, State.clearPlanes_eq]
  exact ⟨[], [], cleared, (perform_resetInput s).trans cleared, fun i => ⟨Memory.read_nil i, Memory.read_nil i⟩⟩

/-- Settles O39: the two rows of the decoder, and the two instructions' meanings. -/
theorem nopAndReservedChangeNothing : Obligations.NopAndReservedChangeNothing :=
  ⟨fun _ bits => decodeRequest_nop bits, fun _ bits => decodeRequest_reservedF (Frame.op_of_bits bits),
    fun s => ⟨exec_nop s, exec_reservedF s⟩⟩

end Sys2Proof.Machine
end

section
/-! PROOFS of the statements about the controller's commands and registers: the command map read both ways, the flags
each instruction raises, and the commands that answer what requests of theirs answer and complete. -/

namespace Sys2Proof

/-! ## The command map, both ways (R66) -/

theorem encode_of_decodeCommand {c : Word} {i : Instr} (h : decodeCommand c = .ok i) : encode i = .command c := by
  unfold decodeCommand at h
  split at h
  case h_16 => exact nomatch h
  all_goals
    next value =>
    obtain rfl := Except.ok.inj h
    exact congrArg Transaction.command (BitVec.eq_of_toNat_eq value.symm)

theorem decodeCommand_of_encode {c : Word} {i : Instr} (h : encode i = .command c) : decodeCommand c = .ok i := by
  cases i with
  | nop | clear | swap | setpix | getpix | hline | vline | fillrect | scrollup | scrolldn | copyrgn | hostrd | hostwr
  | snapshot | reset | reservedF => exact nomatch h
  | _ =>
    obtain rfl := Transaction.command.inj h
    rfl

/-- No command has a value above 0x0E (R66). -/
theorem decodeCommand_unknown {c : Word} (above : 0x0E < c.toNat) : decodeCommand c = .error (.unknownCommand c) := by
  unfold decodeCommand
  split
  case h_16 => rfl
  all_goals omega

/-- Settles O3: the command map is injective row by row, and its rows end at 0x0E. -/
theorem commandValuesAreExactlyTheEncodings : Obligations.CommandValuesAreExactlyTheEncodings :=
  ⟨fun _ _ => ⟨encode_of_decodeCommand, decodeCommand_of_encode⟩, fun _ above => decodeCommand_unknown above⟩

end Sys2Proof

namespace Sys2Proof.Machine

/-! ## The flags an instruction raises (R67) -/

/-- COMMAND_COMPLETE for a command, BUFFER_SWAP for a SWAP, both for the swap command, and none for another request. -/
def raisedFlags : Instr → Byte
  | .swap => flagBufferSwap
  | .cmdSwap => flagBufferSwap ||| flagCommandComplete
  | .cmdNop | .cmdClear | .cmdSetPixel | .cmdLine | .cmdRectOutline | .cmdRectFill | .cmdCircleOutline | .cmdCircleFill
  | .cmdCopyRegion | .cmdTextWriteChar | .cmdTextSetCursor | .cmdTextClear | .cmdTextScrollUp
  | .cmdTextScrollDown => flagCommandComplete
  | _ => 0#8

theorem exec_pending (i : Instr) (s : State) :
    ∃ t, exec i s = .next t ∧ t.pending = raiseFlags s.pending (raisedFlags i) := by
  cases i with
  | cmdSwap => exact ⟨_, rfl, BitVec.or_assoc _ _ _⟩
  | nop | clear | setpix | getpix | hline | vline | fillrect | scrollup | scrolldn | copyrgn | hostrd | hostwr
  | snapshot | reset | reservedF => exact ⟨_, rfl, BitVec.or_zero.symm⟩
  | _ => exact ⟨_, rfl, rfl⟩

/-- A command raises COMMAND_COMPLETE, the swap command BUFFER_SWAP as well (R67). -/
theorem raisedFlags_of_decodeCommand {c : Word} {i : Instr} (h : decodeCommand c = .ok i) :
    raisedFlags i = 0x04#8 ||| if c = 0x02#32 then 0x08#8 else 0x00#8 := by
  have encoded := encode_of_decodeCommand h
  cases i with
  | nop | clear | swap | setpix | getpix | hline | vline | fillrect | scrollup | scrolldn | copyrgn | hostrd | hostwr
  | snapshot | reset | reservedF => exact nomatch encoded
  | _ =>
    obtain rfl := Transaction.command.inj encoded
    rfl

/-- Of the requests only SWAP raises a flag (R67). -/
theorem raisedFlags_decodeRequest (f : Frame) :
    raisedFlags (decodeRequest f) = if f.op = 0x2 then flagBufferSwap else 0#8 := by
  unfold decodeRequest
  split
  case h_3 isSwap => rw [if_pos isSwap]; rfl
  all_goals
    rw [if_neg (by omega)]
    rfl

theorem performCommand_pending (c : Word) (s : State) : ∃ t, performCommand c s = .next t ∧
    t.pending = s.pending ||| 0x04#8 ||| (if c = 0x02#32 then 0x08#8 else 0x00#8) := by
  cases hc : decodeCommand c with
  | ok i =>
    obtain ⟨t, runs, flags⟩ := exec_pending i (s.setReg commandReg c)
    refine ⟨t, (performCommand_known hc s).trans runs, ?_⟩
    rw [flags, raisedFlags_of_decodeCommand hc, raiseFlags, State.setReg_pending, BitVec.or_assoc]
  | error e =>
    have notSwap : c ≠ 0x02#32 := by
      rintro rfl
      exact nomatch hc
    refine ⟨_, performCommand_unknown hc s, ?_⟩
    rw [if_neg notSwap, BitVec.or_zero]
    rfl

/-- `op` is SWAP's exactly when the header's low bits are (R39, R40). -/
theorem op_eq_swap_iff (f : Frame) : f.op = 0x2 ↔ f.h.extractLsb' 0 4 = 0x2#4 := by
  rw [Frame.op_eq_bits]
  exact (BitVec.toNat_inj (y := 0x2#4))

/-- Settles O46: a command's flags are `performCommand_pending`, a request's those of the instruction it decodes to. -/
theorem completionAndSwapFlags : Obligations.CompletionAndSwapFlags := by
  refine ⟨performCommand_pending, fun f s => ?_⟩
  obtain ⟨t, runs, flags⟩ := exec_pending (decodeRequest f) s
  refine ⟨t, runs, ?_⟩
  rw [flags, raisedFlags_decodeRequest, raiseFlags]
  simp only [op_eq_swap_iff]
  split
  · rfl
  · exact BitVec.or_zero

/-! ## Commands that complete after their requests (R66) -/

/-- From `s` the command answers what its requests answer, `requests`, with COMMAND_COMPLETE raised. -/
def CompletesAfter (cmd : Instr) (s : State) (requests : Host.Outcome State Fault Refusal) : Prop :=
  ∃ t : State, requests = .next t ∧ exec cmd s = .next { t with pending := t.pending ||| 0x04#8 }

/-- A command whose meaning is some state completed, completes after requests that answer this state. -/
theorem completesAfter_of_complete {cmd : Instr} {s t : State} {requests : Host.Outcome State Fault Refusal}
    (runs : exec cmd s = .next t.complete) (answer : requests = .next t) : CompletesAfter cmd s requests :=
  ⟨t, answer, runs⟩

/-- Settles O41: each command's meaning is its request's state, completed. -/
theorem directCommandsIssueTheirRequest : Obligations.DirectCommandsIssueTheirRequest := fun _ =>
  ⟨completesAfter_of_complete rfl rfl, completesAfter_of_complete rfl (exec_swap _),
    completesAfter_of_complete rfl (exec_setpix _ _ _ _), completesAfter_of_complete rfl (exec_copyrgn _ _ _ _ _ _ _)⟩

/-- Settles O40, by cases over the six commands. -/
theorem quietCommandsOnlyComplete : Obligations.QuietCommandsOnlyComplete := by
  intro i s listed
  simp only [List.mem_cons, List.not_mem_nil, or_false] at listed
  rcases listed with rfl | rfl | rfl | rfl | rfl | rfl
  all_goals exact congrArg Host.Outcome.next s.complete_eq

/-- Settles O47: above 0x0E the decoder finds no command. -/
theorem unknownCommandOnlyCompletes : Obligations.UnknownCommandOnlyCompletes := by
  intro c s above
  rw [perform_command, performCommand_unknown (decodeCommand_unknown above)]
  rfl

/-! ## Register and status writes (R66, R78) -/

/-- A flag stays pending unless a one is written to it (R78). -/
theorem getLsbD_clearFlags_lowByte (pending : Byte) (w : Word) {k : Nat} (h : k < 8) :
    (clearFlags pending (lowByte w)).getLsbD k = (pending.getLsbD k && !w.getLsbD k) := by
  simp only [clearFlags, lowByte, BitVec.getLsbD_and, BitVec.getLsbD_not, BitVec.getLsbD_setWidth, h, decide_true,
    Bool.true_and]

/-- Settles O48: a register write is a command at the command register and `setReg` elsewhere. -/
theorem registerWritesHoldOrCommand : Obligations.RegisterWritesHoldOrCommand := by
  refine ⟨fun r w s other => ?_, fun w s => rfl, fun w s =>
    ⟨_, perform_statusWrite w s, fun k hk => getLsbD_clearFlags_lowByte s.pending w hk⟩⟩
  exact ⟨s.setReg r w, if_neg other, s.setReg_get_same r w, fun q ne => s.setReg_get_other r q w ne⟩

end Sys2Proof.Machine
end

section
/-! PROOFS of the statements about the drawing engine's rectangles and the rasterizers' pixels: each call is the requests
of its rule one after the other, and its command answers what the call does, completed. -/

namespace Sys2Proof.Machine

/-! ## Filled rectangles (R68) -/

/-- The call has the outcome of the FILLRECT of its corners, or of no request (R68). -/
theorem perform_fillRectangle_eq_execAll (x y w h v : Int) (s : State) :
    perform (.draw (.fillRectangle x y w h v)) s =
      execAll (if 1 ≤ w ∧ 1 ≤ h then [.fillrect x y (x + w - 1) (y + h - 1) v] else []) s := by
  by_cases nonempty : 1 ≤ w ∧ 1 ≤ h
  · rw [if_pos nonempty, execAll_singleton, perform_fillRectangle nonempty]
  · rw [if_neg nonempty, perform_fillRectangle_empty nonempty]
    rfl

/-- Settles O42: the command makes the drawing engine's call on its four parameters with value 1. -/
theorem rectFillConvertsToFillrect : Obligations.RectFillConvertsToFillrect :=
  ⟨fun s => completesAfter_of_complete (cmd := .cmdRectFill) rfl
      ((perform_fillRectangle_eq_execAll _ _ _ _ _ s).symm.trans (perform_draw _ s)),
    fun s x y w h v => perform_fillRectangle_eq_execAll x y w h v s⟩

/-! ## Rectangle outlines (R69) -/

/-- The points of the outline's segments, in the order they are drawn. -/
def outlinePoints (x y w h : Int) : List (Int × Int) :=
  hlinePoints x (x + w - 1) y ++ hlinePoints x (x + w - 1) (y + h - 1) ++
    if 2 < h then vlinePoints x (y + 1) (y + h - 1 - 1) ++ vlinePoints (x + w - 1) (y + 1) (y + h - 1 - 1) else []

/-- The segments cover the perimeter: the two HLINEs its first and last row, the two VLINEs the columns' rows between,
of which there are none up to height 2. -/
theorem mem_outlinePoints {x y w h a b : Int} (columns : 1 ≤ w) (rows : 1 ≤ h) :
    (a, b) ∈ outlinePoints x y w h ↔ InBounds a b ∧ (x ≤ a ∧ a ≤ x + w - 1 ∧ y ≤ b ∧ b ≤ y + h - 1) ∧
      (a = x ∨ a = x + w - 1 ∨ b = y ∨ b = y + h - 1) := by
  unfold outlinePoints
  split
  · simp only [List.mem_append, mem_hlinePoints, mem_vlinePoints]
    omega
  · simp only [List.mem_append, mem_hlinePoints, List.not_mem_nil, or_false]
    omega

/-- Drawing the segments one after the other paints all their points. -/
theorem Memory.drawRectangle_eq_paint (m : Memory) {x y w h : Int} (nonempty : 1 ≤ w ∧ 1 ≤ h) (v : Int) :
    m.drawRectangle x y w h v = m.paint (outlinePoints x y w h) (pixelBit v) := by
  rw [Memory.drawRectangle, if_pos nonempty, outlinePoints]
  split
  · simp only [Memory.paint_append]
    rfl
  · simp only [List.append_nil, Memory.paint_append]
    rfl

/-- The call has the outcome of its segments' requests, or of none (R69). -/
theorem perform_drawRectangle_eq_execAll (x y w h v : Int) (s : State) :
    perform (.draw (.drawRectangle x y w h v)) s =
      execAll (if 1 ≤ w ∧ 1 ≤ h then
        [.hline x (x + w - 1) y v, .hline x (x + w - 1) (y + h - 1) v] ++
          (if 2 < h then [.vline x (y + 1) (y + h - 1 - 1) v, .vline (x + w - 1) (y + 1) (y + h - 1 - 1) v] else [])
        else []) s := by
  rw [perform_draw, Memory.draw, Memory.drawRectangle]
  by_cases nonempty : 1 ≤ w ∧ 1 ≤ h
  · rw [if_pos nonempty, if_pos nonempty]
    by_cases tall : 2 < h
    · simp only [if_pos tall]
      rfl
    · simp only [if_neg tall]
      rfl
  · rw [if_neg nonempty, if_neg nonempty]
    rfl

/-- Settles O43: the command makes the drawing engine's call on its four parameters with value 1. -/
theorem rectOutlineIsItsSegments : Obligations.RectOutlineIsItsSegments :=
  ⟨fun s x y w h v => perform_drawRectangle_eq_execAll x y w h v s,
    fun s => completesAfter_of_complete (cmd := .cmdRectOutline) rfl (perform_draw _ s)⟩

/-- Settles O44: the outline is a painting of `outlinePoints`, whose members are the grid points of the perimeter. -/
theorem rectOutlineDrawsThePerimeter : Obligations.RectOutlineDrawsThePerimeter := by
  intro s x y w h v wf columns rows
  refine ⟨_, perform_draw _ s, fun a b inside => ?_⟩
  rw [Memory.draw, Memory.drawRectangle_eq_paint _ ⟨columns, rows⟩]
  exact Memory.pix_paint_region wf (mem_outlinePoints columns rows) inside _

/-! ## Rasterized pixels (R70) -/

/-- SETPIX requests one after the other make their pixel writes in that order, on the back plane only. -/
theorem execAll_setpix (ps : List PixelRequest) (s : State) :
    execAll (ps.map fun p => .setpix (val p.x) (val p.y) (val p.v)) s =
      .next (s.setBack (s.back.plotRequests ps)) := by
  induction ps generalizing s with
  | nil => rfl
  | cons p ps ih =>
    rw [List.map_cons, execAll, exec_setpix]
    exact ih (s.setBack (s.back.setPixel (val p.x) (val p.y) (pixelBit (val p.v))))

/-- Settles O45: the call plots its requests' pixels, and a raster command those of its free value. -/
theorem rasterPixelsAreSetpixRequests : Obligations.RasterPixelsAreSetpixRequests := by
  refine ⟨fun s ps => (perform_draw _ s).trans (execAll_setpix ps s).symm, fun s k =>
    ⟨_, execAll_setpix _ s, ?_⟩⟩
  cases k with
  | line | circleOutline | circleFill => rfl

end Sys2Proof.Machine
end

section
/-! PROOFS of the statements about the text renderer, the controller's tick and reset, and the display sink. A character
and a screen write each of their pixels with one value, so the order of the writes does not matter. -/

namespace Sys2Proof.Machine

/-! ## One character (R71) -/

/-- A grid pixel of the 8 by 8 cell takes the value R71 gives its row and column. -/
theorem Memory.pix_plot_characterPixels {m : Memory} (h : m.wf = true) (x y : Int) (cell : TextCell) (r c : Fin 8)
    (inside : InBounds (x + c.val) (y + r.val)) :
    (m.plot (characterPixels x y cell)).pix (x + c.val) (y + r.val) = pixelBit (characterValue cell r c) := by
  refine Memory.pix_plot_of_mem h (p := (x + (c.val : Int), y + (r.val : Int), pixelBit (characterValue cell r c)))
    (mem_characterPixels.2 ⟨r, c, rfl⟩) inside fun q listed same => ?_
  obtain ⟨r', c', rfl⟩ := mem_characterPixels.1 listed
  dsimp only at same
  obtain rfl : r = r' := Fin.ext (by omega)
  obtain rfl : c = c' := Fin.ext (by omega)
  rfl

/-- A grid pixel outside the cell is kept. -/
theorem Memory.pix_plot_characterPixels_outside {m : Memory} (h : m.wf = true) {x y a b : Int} (cell : TextCell)
    (inside : InBounds a b) (outside : ¬ (x ≤ a ∧ a < x + 8 ∧ y ≤ b ∧ b < y + 8)) :
    (m.plot (characterPixels x y cell)).pix a b = m.pix a b := by
  refine Memory.pix_plot_of_not_mem h inside fun q listed same => outside ?_
  obtain ⟨r, c, rfl⟩ := mem_characterPixels.1 listed
  dsimp only at same
  omega

/-- Settles O49: the 64 writes name 64 distinct pixels, with the values of `characterValue`. -/
theorem renderCharacterDrawsGlyph : Obligations.RenderCharacterDrawsGlyph := fun s x y cell wf =>
  ⟨_, perform_draw (.renderCharacter x y cell) s,
    fun r c inside => Memory.pix_plot_characterPixels wf x y cell r c inside,
    fun _ _ inside outside => Memory.pix_plot_characterPixels_outside wf cell inside outside⟩

/-! ## The whole screen (R72) -/

/-- The column of pixel column `c` of cell `k` (R72, D23). -/
def screenX (k : Fin 2000) (c : Fin 8) : Int := 8 * ((k.val % 80 : Nat) : Int) + c.val

/-- The row of pixel row `r` of cell `k` (R72, D23). -/
def screenY (k : Fin 2000) (r : Fin 8) : Int := 8 * ((k.val / 80 : Nat) : Int) + r.val

/-- The 80 by 25 cells of 8 by 8 pixels lie in the grid. -/
theorem screen_inBounds (k : Fin 2000) (r c : Fin 8) : InBounds (screenX k c) (screenY k r) := by
  unfold screenX screenY
  omega

/-- No pixel belongs to two cells, or twice to one. -/
theorem screen_injective {k k' : Fin 2000} {r r' c c' : Fin 8} (hx : screenX k c = screenX k' c')
    (hy : screenY k r = screenY k' r') : k = k' ∧ r = r' ∧ c = c' := by
  unfold screenX at hx
  unfold screenY at hy
  exact ⟨Fin.ext (by omega), Fin.ext (by omega), Fin.ext (by omega)⟩

/-- The full repaint gives each pixel of cell `k` its character's value. -/
theorem Memory.pix_plot_screenPixels {m : Memory} (h : m.wf = true) (screen : TextScreen) (k : Fin 2000)
    (r c : Fin 8) : (m.plot (screenPixels screen)).pix (screenX k c) (screenY k r) =
      pixelBit (characterValue (screen.cells.get k) r c) := by
  refine Memory.pix_plot_of_mem h (p := (screenX k c, screenY k r, pixelBit (characterValue (screen.cells.get k) r c)))
    (mem_screenPixels.2 ⟨k, mem_characterPixels.2 ⟨r, c, rfl⟩⟩) (screen_inBounds k r c) fun q listed' same => ?_
  obtain ⟨k', named⟩ := mem_screenPixels.1 listed'
  obtain ⟨r', c', rfl⟩ := mem_characterPixels.1 named
  obtain ⟨rfl, rfl, rfl⟩ := screen_injective same.1 same.2
  rfl

/-- The overlay's cell holds the pixels of the one character at its column and row. -/
theorem screen_mem_cellPoints_iff (k : Fin 2000) (r c : Fin 8) (cx : Fin 80) (cy : Fin 25) :
    (screenX k c, screenY k r) ∈ cellPoints cx cy ↔ cx.val = k.val % 80 ∧ cy.val = k.val / 80 := by
  rw [mem_cellPoints]
  unfold screenX screenY
  constructor
  · rintro ⟨r', c', same⟩
    obtain ⟨hx, hy⟩ := Prod.mk.inj same
    omega
  · rintro ⟨column, row⟩
    exact ⟨r, c, by rw [column, row]⟩

/-- The cursor is on, in the cell of character `k`. -/
abbrev CursorAt (screen : TextScreen) (k : Fin 2000) : Prop :=
  ∃ p : Fin 80 × Fin 25, screen.cursor = some p ∧ p.1.val = k.val % 80 ∧ p.2.val = k.val / 80

/-- A render leaves each pixel of cell `k` with its character's value, inverted where the cursor is. -/
theorem Memory.pix_render {m : Memory} (h : m.wf = true) (screen : TextScreen) (k : Fin 2000) (r c : Fin 8) :
    (m.render screen).pix (screenX k c) (screenY k r) =
      Bool.xor (pixelBit (characterValue (screen.cells.get k) r c)) (decide (CursorAt screen k)) := by
  have painted := Memory.pix_plot_screenPixels h screen k r c
  rcases Option.eq_none_or_eq_some screen.cursor with cursor | ⟨⟨cx, cy⟩, cursor⟩
  · have off : ¬ CursorAt screen k := fun ⟨p, on, _⟩ => nomatch cursor.symm.trans on
    simp only [Memory.render, cursor, painted, off, decide_false, Bool.xor_false]
  · have here : CursorAt screen k ↔ cx.val = k.val % 80 ∧ cy.val = k.val / 80 := by
      simp only [CursorAt, cursor, Option.some.injEq, exists_eq_left']
    have inverted := Memory.pix_invertCell (Memory.plot_wf h (screenPixels screen)) cx cy (screen_inBounds k r c)
    simp only [Memory.render, cursor]
    rw [inverted, painted, if_congr ((screen_mem_cellPoints_iff k r c cx cy).trans here.symm) rfl rfl]
    by_cases on : CursorAt screen k <;> simp [on]

/-! ## The tick (R72, R78) -/

theorem State.tick_text (s : State) (screen : TextScreen) (sink : Bool) :
    s.tick (some screen) sink =
      { s with back := s.back.render screen, outputs := s.outputs ++ (if sink then [.frame s.front.bytes] else []),
               pending := tickFlags s.pending (Config.verticalBlank s.freeCount), freeCount := s.freeCount + 1 } := by
  cases sink with
  | true => rfl
  | false =>
    rw [if_neg Bool.false_ne_true, List.append_nil]
    rfl

/-- Settles O50: the tick is `State.tick_text`, and its render's pixels are `Memory.pix_render`. -/
theorem textTickPaintsEveryCell : Obligations.TextTickPaintsEveryCell := by
  intro s screen sink wf
  refine ⟨_, _, congrArg Host.Outcome.next (s.tick_text screen sink), fun j other => tickFlags_other _ _ other,
    fun k r c => ?_⟩
  exact Memory.pix_render wf screen k r c

/-- Settles O52: in graphics mode the tick is `State.blankTick`, with a snapshot after it for a sink. -/
theorem graphicsTickOnlySnapshots : Obligations.GraphicsTickOnlySnapshots := fun s =>
  ⟨_, s.blankTick, s.blankTick_eq, perform_tick none false s, perform_tick none true s,
    fun _ other => tickFlags_other _ _ other⟩

/-! ## The controller's reset and the sink (R74, R75) -/

/-- Settles O54: the controller's reset is `clearPlanes` with its registers and flags set. -/
theorem controllerResetAndSinkMessages : Obligations.ControllerResetAndSinkMessages :=
  ⟨fun s => ⟨s.clearPlanes, s.controllerReset, exec_reset s, perform_controllerReset s, rfl, rfl, rfl⟩,
    fun s msg => perform_sinkMessage msg s⟩

end Sys2Proof.Machine
end

section
/-! PROOFS of the statements about exceptions and idleness: every step goes on, so every run does; with no input the
step changes nothing. -/

namespace Sys2Proof.Machine

/-! ## Runs of the machine (R76) -/

theorem core_run_succ (M : Host.Core) {s t : M.State} (h : M.step s = .next t) (n : Nat) :
    M.run (n + 1) s = M.run n t := by
  rw [Host.Core.run, h]

theorem safeRun_zero (s : State) : SafeRun 0 s := ⟨s, rfl⟩

theorem safeRun_succ {n : Nat} {s t : State} (h : step s = .next t) (run : SafeRun n t) : SafeRun (n + 1) s := by
  obtain ⟨u, reaches⟩ := run
  exact ⟨u, (core_run_succ Sys2Proof.core h n).trans reaches⟩

/-- Settles O14, by induction on the number of steps: `step_updates` gives the first one a state to go on from. -/
theorem everyRunCompletes : Obligations.EveryRunCompletes := by
  intro n
  induction n with
  | zero => exact safeRun_zero
  | succ n ih =>
    intro s
    obtain ⟨t, stepsTo, _⟩ := step_updates s
    exact safeRun_succ stepsTo (ih t)

/-! ## Idleness (R84) -/

/-- Settles O13: it is the idle equation of a step. -/
theorem idleStepChangesNothing : Obligations.IdleStepChangesNothing := fun _ => step_idle

end Sys2Proof.Machine
end

section
/-! PROOFS of the statements about hazards: delivered outputs stay, a window read sees a window write only across a
SWAP, and a text-mode tick overwrites whatever the back plane held. -/

namespace Sys2Proof.Machine

/-! ## Delivered outputs (R42, R93) -/

/-- An elementary update leaves the outputs alone, but for an emission, which adds one at the end. -/
theorem Update.outputs_prefix {s t : State} (h : Update s t) : s.outputs <+: t.outputs := by
  cases h with
  | emit o => exact List.prefix_append s.outputs [o]
  | back | publish | clearPlanes | raise | clearPending | setReg | setInbox | useFree | controllerReset =>
    exact List.prefix_refl s.outputs

theorem Updates.outputs_prefix {s t : State} (h : Updates s t) : s.outputs <+: t.outputs :=
  h.keeps (P := fun u => s.outputs <+: u.outputs) (fun last before => before.trans last.outputs_prefix)
    (List.prefix_refl s.outputs)

/-- Settles O17: a step is a chain of elementary updates, each of which keeps the outputs as a prefix. -/
theorem deliveredOutputsNeverChange : Obligations.DeliveredOutputsNeverChange := by
  intro s t ht
  obtain ⟨t', ht', updates⟩ := step_updates s
  obtain rfl : t' = t := Host.Outcome.next.inj (ht'.symm.trans ht)
  obtain ⟨added, appended⟩ := updates.outputs_prefix
  exact ⟨added, appended.symm⟩

/-! ## Window reads and writes (R30, R89) -/

/-- A window read in range answers the byte of the front plane (R59). -/
theorem exec_hostrd_of_inPlane {i : Int} (inside : InPlane i) (s : State) :
    exec (.hostrd i) s =
      .next { s with outputs := s.outputs ++ [.response (BitVec.setWidth 32 (s.front.read i.toNat))] } := by
  rw [exec_hostrd, State.emit_eq, byteWord_windowRead, if_pos inside]

/-- The byte a window write in range has left at its own offset (R60). -/
theorem Memory.read_windowWrite_same {m : Memory} (h : m.wf = true) {i : Int} (inside : InPlane i) (b : Byte) :
    (m.windowWrite i b).read i.toNat = b := by
  rw [Memory.read_windowWrite_of_inPlane h inside, if_pos (Int.toNat_of_nonneg inside.1)]

/-- Settles O35: HOSTWR keeps the front plane HOSTRD answers from, and SWAP makes it the back plane HOSTWR wrote. -/
theorem windowReadAfterWriteNeedsSwap : Obligations.WindowReadAfterWriteNeedsSwap := by
  intro s i w wf range
  have inside : InPlane i := inPlane_iff.2 range
  refine ⟨_, _, exec_hostwr i w s, exec_swap _, exec_hostrd_of_inPlane inside _, ?_⟩
  have published : (s.setBack (s.back.windowWrite i (lowByte w))).swapPlanes.front.read i.toNat =
      w.extractLsb' 0 8 := by
    rw [State.swapPlanes_front, State.setBack_back, Memory.read_windowWrite_same wf inside, lowByte_eq_extractLsb']
  rw [exec_hostrd_of_inPlane inside, published]

/-! ## Text-mode ticks (R72, R92) -/

/-- The 2,000 cells cover the grid. -/
theorem exists_screen_of_inBounds {x y : Int} (inside : InBounds x y) :
    ∃ (k : Fin 2000) (r c : Fin 8), screenX k c = x ∧ screenY k r = y := by
  refine ⟨⟨80 * (y / 8).toNat + (x / 8).toNat, by omega⟩, ⟨(y % 8).toNat, by omega⟩,
    ⟨(x % 8).toNat, by omega⟩, ?_, ?_⟩
  · simp only [screenX]
    omega
  · simp only [screenY]
    omega

/-- A render's outcome does not depend on the canonical plane it starts from (R92). -/
theorem Memory.render_forgets_plane {m n : Memory} (hm : m.wf = true) (hn : n.wf = true) (screen : TextScreen) :
    m.render screen = n.render screen := by
  refine Memory.ext_pix (Memory.render_wf hm screen) (Memory.render_wf hn screen) fun x y inside => ?_
  obtain ⟨k, r, c, rfl, rfl⟩ := exists_screen_of_inBounds inside
  exact (Memory.pix_render hm screen k r c).trans (Memory.pix_render hn screen k r c).symm

/-- Settles O51: of the back plane a text-mode tick keeps only its render, `Memory.render_forgets_plane`. -/
theorem textTickForgetsBackPlane : Obligations.TextTickForgetsBackPlane := by
  intro s m n screen sink hm hn
  rw [perform_tick, perform_tick, State.tick_text, State.tick_text, Memory.render_forgets_plane hm hn]

end Sys2Proof.Machine
end
